-- ==== Sys2Proof/Word.lean ====
section
/-! DEFINITION. The word types of the record decoder (00_scope.md R6, R7). -/

namespace Sys2Proof

/-- A byte; bit 7 is the most significant (R7). -/
abbrev Byte := BitVec 8

/-- A 32-bit operand word; bit 31 is the most significant (R6, R7). -/
abbrev Word := BitVec 32

/-- The record seen as one value `rec[111:0]`, byte 0 at the top (R8). It is also the data port (R22). -/
abbrev Record := BitVec 112

/-- The length port, saturated at 15 (R21). -/
abbrev ReqLen := BitVec 4

/-- A binary64 encoding (R148). -/
abbrev B64 := BitVec 64

end Sys2Proof
end

