-- ==== Sys2Proof/Config.lean ====
section
/-! DEFINITION. What an implementation fixes (FP_RENDER) and the free values of the model. -/

namespace Sys2Proof

/-- FP_RENDER, the build-time floating-point rendering (00_scope.md section 4, R148). -/
inductive FpRender where
  /-- NONE: no F64 output and no F64 operation exists. The default of this hardware. -/
  | none
  /-- STEPWISE_B64: the source formula in binary64, one rounded operation at a time. -/
  | stepwiseB64
  /-- ROUNDED_B64: the exact rational rounded once. -/
  | roundedB64
deriving DecidableEq, Repr

namespace Config

/-- R193: whether the response to a request that the host changed mid-transaction is the error.
FREE VALUE: no body, so no proof can see it (DESIGN CHOICE, log 12).
It may depend on the count of disturbed responses so far and on the request. -/
opaque freeVerdict (count : Nat) (len : ReqLen) (data : Record) : Bool

/-- R193: the value of field number `slot`, `w` bits wide, in the response to a request that the host
changed mid-transaction. FREE VALUE: no body (DESIGN CHOICE, log 12). -/
opaque freeBits (w slot count : Nat) (len : ReqLen) (data : Record) : BitVec w

end Config

end Sys2Proof
end

