-- ==== Sys2Proof/Syntax.lean ====
section
/-! DEFINITION. The twenty operations of the block, one constructor per row of spec/opcode_table.json (R80). -/

namespace Sys2Proof

/-- The operations of the block. Only `decode` is selected by a request (R70, R80); the nineteen others
are the datapath operations that DECODE applies to every record that passes the length check. Their
operands are the operand words or the raw field of the transaction in progress, so they carry none. -/
inductive Instr where
  /-- DECODE (R100): the length port and the data port of one request. -/
  | decode (len : ReqLen) (data : Record)
  /-- EXT_YEAR (R121). -/
  | extYear
  /-- EXT_MONTH (R122). -/
  | extMonth
  /-- EXT_DAY (R123). -/
  | extDay
  /-- EXT_SECS (R124). -/
  | extSecs
  /-- EXT_LAT (R125). -/
  | extLat
  /-- EXT_LON (R126). -/
  | extLon
  /-- EXT_SUBM (R127). -/
  | extSubm
  /-- EXT_GPS (R128). -/
  | extGps
  /-- EXT_SST (R129). -/
  | extSst
  /-- EXT_BATT (R130). -/
  | extBatt
  /-- CVT_YEAR (R141). -/
  | cvtYear
  /-- CVT_LAT (R142). -/
  | cvtLat
  /-- CVT_LON (R143). -/
  | cvtLon
  /-- CVT_SST (R144). -/
  | cvtSst
  /-- CVT_BATT (R145). -/
  | cvtBatt
  /-- F64_LAT (R149), present only when FP_RENDER is not NONE. -/
  | f64Lat
  /-- F64_LON (R150), present only when FP_RENDER is not NONE. -/
  | f64Lon
  /-- F64_SST (R151), present only when FP_RENDER is not NONE. -/
  | f64Sst
  /-- F64_BATT (R152), present only when FP_RENDER is not NONE. -/
  | f64Batt
deriving DecidableEq, Repr

end Sys2Proof
end

