-- ==== Sys2Proof/WellFormed.lean ====
section
/-! DEFINITION. Which operations are well formed: the host's lane duty (R23) and the presence of the
F64 operations (R148). The machine runs an ill-formed request all the same (R23: no output depends on an
absent lane). -/

namespace Sys2Proof

/-- R23: the lanes `b` with `b >= req_len` are driven to zero, that is, the low `8 * (14 - req_len)` bits. -/
def absentLanesZero (len : ReqLen) (data : Record) : Bool :=
  data.toNat % 2 ^ (8 * (14 - len.toNat)) == 0

/-- Well-formedness in a block built with the given FP_RENDER. -/
def Instr.wellFormed (fp : FpRender) : Instr → Bool
  | .decode len data => absentLanesZero len data
  | .extYear => true
  | .extMonth => true
  | .extDay => true
  | .extSecs => true
  | .extLat => true
  | .extLon => true
  | .extSubm => true
  | .extGps => true
  | .extSst => true
  | .extBatt => true
  | .cvtYear => true
  | .cvtLat => true
  | .cvtLon => true
  | .cvtSst => true
  | .cvtBatt => true
  | .f64Lat => fp != .none
  | .f64Lon => fp != .none
  | .f64Sst => fp != .none
  | .f64Batt => fp != .none

end Sys2Proof
end

