-- ==== Sys2Proof/Decode.lean ====
section
/-! DEFINITION. Format REQ (30_encoding.md section 1) as one word, the decoder, the encoder, and a request
as a buffer of bytes (R21 to R23, R83). -/

namespace Sys2Proof

/-! ### Byte order and lanes -/

/-- The unsigned integer a list of bytes stands for, the first byte the most significant (R52, R53). -/
def bigEndian (bytes : List Byte) : Nat :=
  bytes.foldl (fun acc b => acc * 256 + b.toNat) 0

/-- Byte `b` of the data port, `req_data[111-8b : 104-8b]` (R8, R22); meant for `b <= 13`. -/
def lane (data : Record) (b : Nat) : Byte :=
  data.extractLsb' (104 - 8 * b) 8

/-- R21: the byte count of a buffer as the length port carries it, saturated at 15. -/
def saturateLen (count : Nat) : ReqLen :=
  BitVec.ofNat 4 (min count 15)

/-- R22, R23: bytes 0 to 13 of a buffer on the data port, absent lanes driven to zero. -/
def packLanes (bytes : List Byte) : Record :=
  BitVec.ofNat 112 (bigEndian ((List.range 14).map fun b => bytes.getD b 0))

/-! ### The decoder -/

/-- A request word: the length port is the first word (bits 3:0) and the data port follows it
(bits 115:4). DESIGN CHOICE, log 1: the spec gives two ports and no one number. -/
abbrev ReqWord := BitVec 116

/-- The length port of a request word. -/
def wordLen (w : ReqWord) : ReqLen := w.extractLsb' 0 4

/-- The data port of a request word. -/
def wordData (w : ReqWord) : Record := w.extractLsb' 4 112

/-- R70: there is no opcode field, every request is DECODE. R82: every record value is legal, so the
decoder refuses nothing. -/
def decodeWord (w : ReqWord) : Instr :=
  .decode (wordLen w) (wordData w)

/-- The request that a host makes of a buffer of any length (R21 to R23, R83), decoded. -/
def decodeBuffer (bytes : List Byte) : Instr :=
  .decode (saturateLen bytes.length) (packLanes bytes)

/-- The request word whose bits are `w`, `nbits` of them given and every bit above them zero. -/
def tableWord (nbits w : Nat) : ReqWord :=
  BitVec.ofNat 116 (w % 2 ^ nbits)

/-- The instruction whose bits are `w`, `nbits` of them given (log 1, log 2). -/
def decodeTableWord (nbits w : Nat) : Option Instr :=
  some (decodeWord (tableWord nbits w))

/-! ### The encoder -/

/-- The request word of an operation. The datapath operations have none: no bit selects them and they
cannot be written in a program (R80, R83). -/
def encode : Instr → Option ReqWord
  | .decode len data => some (data ++ len)
  | .extYear => none
  | .extMonth => none
  | .extDay => none
  | .extSecs => none
  | .extLat => none
  | .extLon => none
  | .extSubm => none
  | .extGps => none
  | .extSst => none
  | .extBatt => none
  | .cvtYear => none
  | .cvtLat => none
  | .cvtLon => none
  | .cvtSst => none
  | .cvtBatt => none
  | .f64Lat => none
  | .f64Lon => none
  | .f64Sst => none
  | .f64Batt => none

/-- A buffer that presents a request of the given ports: `len` bytes, the bytes of the data port and, at
length 15, one byte at offset 14 that is not presented (R22, R83). -/
def bufferOf (len : ReqLen) (data : Record) : List Byte :=
  (List.range len.toNat).map fun b => if b < 14 then lane data b else 0

end Sys2Proof
end

