-- ==== Sys2Proof/Machine/State.lean ====
section
/-! DEFINITION. The state of the block as plain data, the reasons to stop, and the state after reset. -/

namespace Sys2Proof.Machine

/-- The field outputs of 10_state.md section 3, all of a successful response (R29). Signed fields are
two's complement (R12). YEAR is held in 12 bits, since 2063 does not fit the 11 of the port table (log 24). The four binary64 fields are present only when FP_RENDER is not NONE (R148). -/
structure DecodedTelemetry where
  year      : BitVec 12
  yearRaw   : BitVec 6
  month     : BitVec 4
  day       : BitVec 5
  secs      : BitVec 17
  latRaw    : BitVec 30
  latFx     : BitVec 31
  lonRaw    : BitVec 31
  lonFx     : BitVec 32
  submerged : Bool
  gpsFlag   : BitVec 2
  sstRaw    : BitVec 12
  sstFx     : BitVec 13
  battRaw   : BitVec 4
  battFx    : BitVec 5
  latF64    : Option B64
  lonF64    : Option B64
  sstF64    : Option B64
  battF64   : Option B64
deriving DecidableEq, Repr

/-- The single error kind (R28, R170). -/
inductive ErrorKind where
  | truncatedInputError
deriving DecidableEq, Repr

/-- A response is wholly a success or wholly an error (R31, R104). -/
inductive Response where
  | ok (d : DecodedTelemetry)
  | err (e : ErrorKind)
deriving DecidableEq, Repr

/-- Every fixed field at zero and no binary64 field written: what `State.out` holds outside a transaction
(log 4). -/
def DecodedTelemetry.blank : DecodedTelemetry where
  year := 0
  yearRaw := 0
  month := 0
  day := 0
  secs := 0
  latRaw := 0
  latFx := 0
  lonRaw := 0
  lonFx := 0
  submerged := false
  gpsFlag := 0
  sstRaw := 0
  sstFx := 0
  battRaw := 0
  battFx := 0
  latF64 := none
  lonF64 := none
  sstF64 := none
  battF64 := none

/-- The request buffer as memory (R50): one cell for each presented byte, addresses strictly rising. An
unlisted address reads as no value: the byte is absent (R23, log 15). -/
abbrev Memory := List Host.Cell

/-- The whole state of one decoder block and its request port. -/
structure State where
  /-- FP_RENDER, fixed when the block is built (R35, R148); no step changes it (log 9). -/
  fpRender  : FpRender
  /-- `req_valid`: a request is presented and not yet answered (R20). -/
  reqValid  : Bool
  /-- MODEL's own: the host has held the outstanding request stable (R193). -/
  reqStable : Bool
  /-- `req_len` (R21). The host drives it and no operation of the block writes it. -/
  reqLen    : ReqLen
  /-- The request buffer, which `req_data` carries (R22, R50). No operation of the block writes it (R51). -/
  buf       : Memory
  /-- Operand word T (R24). -/
  wordT     : Word
  /-- Operand word L1 (R24). -/
  wordL1    : Word
  /-- Operand word L2 (R24). -/
  wordL2    : Word
  /-- Operand word F (R24). -/
  byteF     : Byte
  /-- Operand word N (R24). -/
  byteN     : Byte
  /-- `out` of R100: the field outputs of the transaction in progress. -/
  out       : DecodedTelemetry
  /-- The last response presented (R31). -/
  rsp       : Option Response
  /-- MODEL's own: how many disturbed requests have been answered; selects free values (log 13). -/
  freeCount : Nat
deriving DecidableEq, Repr

/-- Reasons for a fault. No step of the machine raises one (R108). -/
inductive Fault where
  /-- Raised by the HOST's read of a field while `rsp = none` (R190, 93_implementation_defined.md).
  Safe: the model stops where the ports show zero. -/
  | fieldReadBeforeResponse
deriving DecidableEq, Repr

/-- Reasons for a refusal. No step of the machine raises one (R106). -/
inductive Refusal where
  /-- Raised by exec's arm of an instruction without a meaning; no arm is left so. Safe. -/
  | notModelled (mnemonic : String)
  /-- Raised by an F64_ operation under FP_RENDER = NONE, where it does not exist (R148). Safe: no step
  reaches it (log 10). -/
  | f64OperationAbsent
  /-- Raised by the HOST's read of a field of an error response, which has none (R30,
  93_implementation_defined.md). Safe: the model stops where the ports show zero. -/
  | fieldReadOfErrorResponse
deriving DecidableEq, Repr

/-- The outcome of one operation or step. -/
abbrev Outcome := Host.Outcome State Fault Refusal

/-- R190: `rsp = none`, so `rsp_valid = 0` and `rsp_err = 0`; no request is presented (log 5); the operand
words and `out` hold no value, named zero here (log 4); FP_RENDER is its default (log 9). -/
def State.reset : State where
  fpRender := .none
  reqValid := false
  reqStable := true
  reqLen := 0
  buf := []
  wordT := 0
  wordL1 := 0
  wordL2 := 0
  byteF := 0
  byteN := 0
  out := .blank
  rsp := none
  freeCount := 0

end Sys2Proof.Machine
end

