-- ==== Sys2Proof/Machine/Flags.lean ====
section
/-! DEFINITION. The status bits and the field ports. The block has no condition codes (R34): its only status
bits are `rsp_valid` and `rsp_err`, which are views of the response (R27, R28). -/

namespace Sys2Proof.Machine

/-- `rsp_valid` (R27): it marks a response to the latest request, so it is 0 while a request is
outstanding (DEDUCED from R27 and R176, log 7) and 0 after reset (R190). -/
def State.rspValid (s : State) : Bool :=
  s.rsp.isSome && !s.reqValid

/-- `rsp_err` (R28): 1 is TruncatedInputError, 0 is success; 0 after reset (R190). While a later request is
outstanding it keeps showing the last response (DESIGN CHOICE, log 25). -/
def State.rspErr (s : State) : Bool :=
  match s.rsp with
  | none => false
  | some (.ok _) => false
  | some (.err .truncatedInputError) => true

/-- A binary64 output driven to zero, where the block has that output at all (R148). -/
def zeroF64 (fp : FpRender) : Option B64 :=
  match fp with
  | .none => none
  | .stepwiseB64 => some 0
  | .roundedB64 => some 0

/-- Every field output driven to zero: the binary64 outputs too where FP_RENDER gives the block them (R30, R190). -/
def DecodedTelemetry.portZero (fp : FpRender) : DecodedTelemetry :=
  { DecodedTelemetry.blank with
    latF64 := zeroF64 fp
    lonF64 := zeroF64 fp
    sstF64 := zeroF64 fp
    battF64 := zeroF64 fp }

/-- The field output ports: the fields of the last response if it is a success, else zero (R29, R30, R190).
While a later request is outstanding the spec does not say what they show, and they keep showing the last
response (DESIGN CHOICE, log 25). -/
def State.portFields (s : State) : DecodedTelemetry :=
  match s.rsp with
  | none => .portZero s.fpRender
  | some (.ok d) => d
  | some (.err _) => .portZero s.fpRender

/-- The fields as the model's host may read them: before the first response the read faults, and of an
error response it is refused (93_implementation_defined.md section 1; R30, R190; log 8). While a later
request is outstanding it reads the last response still (DESIGN CHOICE, log 25). -/
def State.readFields (s : State) : Host.Outcome DecodedTelemetry Fault Refusal :=
  match s.rsp with
  | none => .fault .fieldReadBeforeResponse
  | some (.ok d) => .next d
  | some (.err _) => .refused .fieldReadOfErrorResponse

end Sys2Proof.Machine
end

