-- ==== Sys2Proof/Machine/Ops.lean ====
section
/-! DEFINITION. The named operations: reading the request buffer, latching a request, loading the operand
words, ending a transaction, and taking the one exception. -/

namespace Sys2Proof.Machine

/-! ### The request buffer -/

/-- How many bytes of a request are presented on the data port (R21, R22). -/
def presentedBytes (len : ReqLen) : Nat :=
  min len.toNat 14

/-- The request buffer of a request (R22, R50): a lane `b >= req_len` is no byte of it (R23). -/
def presentBuffer (len : ReqLen) (data : Record) : Memory :=
  (List.range (presentedBytes len)).map fun b => (b, lane data b)

/-- The byte at one offset; none where the buffer has no byte there (R23, R53). -/
def readByte (m : Memory) (addr : Nat) : Option Byte :=
  match m with
  | [] => none
  | (a, v) :: rest => if a = addr then some v else readByte rest addr

/-- The `n` bytes from `addr` on; none if one of them is absent. -/
def readBytes (m : Memory) (addr : Nat) : Nat → Option (List Byte)
  | 0 => some []
  | n + 1 =>
    match readByte m addr, readBytes m (addr + 1) n with
    | some b, some bs => some (b :: bs)
    | _, _ => none

/-- `MemRead(addr, n)` of R53, big-endian (R52): none where `addr + n > len`, so that no absent lane is
ever read as a byte of the record. -/
def memRead (m : Memory) (addr n : Nat) : Option Nat :=
  (readBytes m addr n).map bigEndian

/-- The canonical form of a buffer: addresses strictly rising. An unlisted address has no value, so no
entry can equal what an unlisted address reads as. -/
abbrev Memory.wf (m : Memory) : Prop :=
  (m.map Prod.fst).Pairwise (· < ·)

/-- `req_data` as the 112-bit port shows it, absent lanes zero (R22, R23). -/
def State.reqData (s : State) : Record :=
  packLanes ((List.range 14).map fun b => (readByte s.buf b).getD 0)

/-! ### A transaction -/

/-- The request port holds the given request, stable and not yet answered (R20). -/
def State.latch (s : State) (len : ReqLen) (data : Record) : State :=
  { s with
    reqValid := true
    reqStable := true
    reqLen := len
    buf := presentBuffer len data }

/-- The output fields of a transaction that begins hold nothing yet (R29: every one is written by
this transaction). -/
def State.clearOut (s : State) : State :=
  { s with out := .blank }

/-- The operand words take the given values (R24). -/
def State.setOperands (s : State) (t l1 l2 : Word) (f n : Byte) : State :=
  { s with wordT := t, wordL1 := l1, wordL2 := l2, byteF := f, byteN := n }

/-- `out.<Field> <- v` (R11). -/
def State.setOut (s : State) (d : DecodedTelemetry) : State :=
  { s with out := d }

/-- The operand load of DECODE (R24, R54, R102): five reads at fixed offsets. None where a read would
leave the buffer `m` of the request (R53). -/
def loadOperands (m : Memory) (s : State) : Option State :=
  match memRead m 0 4, memRead m 4 4, memRead m 8 4, memRead m 12 1, memRead m 13 1 with
  | some t, some l1, some l2, some f, some n =>
    some (s.setOperands (BitVec.ofNat 32 t) (BitVec.ofNat 32 l1) (BitVec.ofNat 32 l2)
      (BitVec.ofNat 8 f) (BitVec.ofNat 8 n))
  | _, _, _, _, _ => none

/-- The response is presented and the transaction is over: `rsp` is overwritten wholly and is all that
survives (R31); the operand words and `out` last for one transaction only (R25, log 4); the request is
answered exactly once (R27, R194, log 6). The length and the buffer on the port are the host's and stay as they
are (R51). -/
def State.respond (s : State) (r : Response) : State :=
  { s with
    reqValid := false
    reqStable := true
    wordT := 0
    wordL1 := 0
    wordL2 := 0
    byteF := 0
    byteN := 0
    out := .blank
    rsp := some r }

/-- TAKING THE EXCEPTION (R173): the error response and nothing else. It saves nothing, changes no mode,
vectors nowhere. There is no return from it (R174): the next request is decoded as any other. -/
def raiseTruncated (s : State) : State :=
  s.respond (.err .truncatedInputError)

/-- The successful response carries every field output at once (R104). -/
def respondOk (s : State) : State :=
  s.respond (.ok s.out)

/-! ### Sequencing -/

/-- Go on with `f` from the next state, or stop as `o` does. -/
def andThen (o : Outcome) (f : State → Outcome) : Outcome :=
  match o with
  | .next s => f s
  | .fault r => .fault r
  | .refused r => .refused r

/-- The operations of a list one after another, stopping at the first that does not go on. -/
def runAll (ops : List (State → Outcome)) (s : State) : Outcome :=
  match ops with
  | [] => .next s
  | op :: rest => andThen (op s) (runAll rest)

/-! ### A request that the host changed (R193) -/

/-- A field of the response to a disturbed request: any value (log 12). -/
def State.freeField (s : State) (w slot : Nat) : BitVec w :=
  Config.freeBits w slot s.freeCount s.reqLen s.reqData

/-- A binary64 field of it, present only when FP_RENDER is not NONE. -/
def State.freeF64 (s : State) (slot : Nat) : Option B64 :=
  if s.fpRender = .none then none else some (s.freeField 64 slot)

/-- R193: any success response with any field values, or the error response. -/
def State.freeResponse (s : State) : Response :=
  if Config.freeVerdict s.freeCount s.reqLen s.reqData then .err .truncatedInputError
  else .ok {
    year := s.freeField 12 0
    yearRaw := s.freeField 6 1
    month := s.freeField 4 2
    day := s.freeField 5 3
    secs := s.freeField 17 4
    latRaw := s.freeField 30 5
    latFx := s.freeField 31 6
    lonRaw := s.freeField 31 7
    lonFx := s.freeField 32 8
    submerged := s.freeField 1 9 = 1
    gpsFlag := s.freeField 2 10
    sstRaw := s.freeField 12 11
    sstFx := s.freeField 13 12
    battRaw := s.freeField 4 13
    battFx := s.freeField 5 14
    latF64 := s.freeF64 15
    lonF64 := s.freeF64 16
    sstF64 := s.freeF64 17
    battF64 := s.freeF64 18 }

/-- The next disturbed request takes other free values. -/
def State.countFree (s : State) : State :=
  { s with freeCount := s.freeCount + 1 }

/-- The answer to a request that the host changed: one response (R194), its content unconstrained (R193). -/
def respondDisturbed (s : State) : State :=
  (s.respond s.freeResponse).countFree

end Sys2Proof.Machine
end

