-- ==== Sys2Proof/Machine/Operands.lean ====
section
/-! DEFINITION. The extractors and rescalers as pure functions of operand words and raw values
(41_extract.md, 42_rescale.md). Every value is unsigned and every shift right is logical (R9, R26, R120);
zero extension is BitVec.setWidth to a wider width (R11). -/

namespace Sys2Proof.Machine

/-- R121: `(T >> 26) & 0x3F`. -/
def yearRawOf (t : Word) : BitVec 6 := ((t >>> 26) &&& 0x3F#32).setWidth 6

/-- R122: `(T >> 22) & 0xF`. -/
def monthOf (t : Word) : BitVec 4 := ((t >>> 22) &&& 0xF#32).setWidth 4

/-- R123: `(T >> 17) & 0x1F`. -/
def dayOf (t : Word) : BitVec 5 := ((t >>> 17) &&& 0x1F#32).setWidth 5

/-- R124: `T & 0x1FFFF`. -/
def secsOf (t : Word) : BitVec 17 := (t &&& 0x1FFFF#32).setWidth 17

/-- R125: `L1 >> 2`, 30 bits. -/
def latRawOf (l1 : Word) : BitVec 30 := (l1 >>> 2).setWidth 30

/-- R126: `(L2 >> 1) & 0x7FFFFFFF`. -/
def lonRawOf (l2 : Word) : BitVec 31 := ((l2 >>> 1) &&& 0x7FFFFFFF#32).setWidth 31

/-- R127: `(F & 0x80) != 0`. -/
def submergedOf (f : Byte) : Bool := (f &&& 0x80#8) != 0

/-- R128: `(F >> 5) & 0x3`. -/
def gpsFlagOf (f : Byte) : BitVec 2 := ((f >>> 5) &&& 0x3#8).setWidth 2

/-- R129: `((F & 0x1F) << 7) | (N >> 1)`, the shift left in a 12-bit result. -/
def sstRawOf (f n : Byte) : BitVec 12 :=
  (((f &&& 0x1F#8).setWidth 12) <<< 7) ||| ((n >>> 1).setWidth 12)

/-- R130: `N & 0xF`. -/
def battRawOf (n : Byte) : BitVec 4 := (n &&& 0xF#8).setWidth 4

/-- R141: 2000 + YEAR_RAW, 2000 to 2063. The rule writes `zext_11`, but 2048 to 2063 do not fit 11 bits: the
sum is formed in 12 (DESIGN CHOICE, log 24). -/
def yearOf (raw : BitVec 6) : BitVec 12 := 2000#12 + raw.setWidth 12

/-- R142: `zext_31(LAT_RAW) - 324_000_000`, two's complement. -/
def latFxOf (raw : BitVec 30) : BitVec 31 := raw.setWidth 31 - 324000000#31

/-- R143: `zext_32(LON_RAW) - 648_000_000`, two's complement. -/
def lonFxOf (raw : BitVec 31) : BitVec 32 := raw.setWidth 32 - 648000000#32

/-- R144: `zext_13(SST_RAW) - 500`, two's complement. -/
def sstFxOf (raw : BitVec 12) : BitVec 13 := raw.setWidth 13 - 500#13

/-- R145: `zext_5(BATT_RAW) + 10`. -/
def battFxOf (raw : BitVec 4) : BitVec 5 := raw.setWidth 5 + 10#5

end Sys2Proof.Machine
end

