-- ==== Sys2Proof/Machine/Extract.lean ====
section
/-! DEFINITION. The ten extractors (41_extract.md): each reads its operand word of the transaction in progress
and writes one raw field of `out`. None writes a flag or raises an exception (R120). -/

namespace Sys2Proof.Machine

/-- EXT_YEAR writes YEAR_RAW (R121). -/
def execExtYear (s : State) : Outcome :=
  .next (s.setOut { s.out with yearRaw := yearRawOf s.wordT })

/-- EXT_MONTH writes MONTH (R122). -/
def execExtMonth (s : State) : Outcome :=
  .next (s.setOut { s.out with month := monthOf s.wordT })

/-- EXT_DAY writes DAY (R123). -/
def execExtDay (s : State) : Outcome :=
  .next (s.setOut { s.out with day := dayOf s.wordT })

/-- EXT_SECS writes SECS (R124). -/
def execExtSecs (s : State) : Outcome :=
  .next (s.setOut { s.out with secs := secsOf s.wordT })

/-- EXT_LAT writes LAT_RAW (R125). -/
def execExtLat (s : State) : Outcome :=
  .next (s.setOut { s.out with latRaw := latRawOf s.wordL1 })

/-- EXT_LON writes LON_RAW (R126). -/
def execExtLon (s : State) : Outcome :=
  .next (s.setOut { s.out with lonRaw := lonRawOf s.wordL2 })

/-- EXT_SUBM writes SUBMERGED (R127). -/
def execExtSubm (s : State) : Outcome :=
  .next (s.setOut { s.out with submerged := submergedOf s.byteF })

/-- EXT_GPS writes GPSFLAG (R128). -/
def execExtGps (s : State) : Outcome :=
  .next (s.setOut { s.out with gpsFlag := gpsFlagOf s.byteF })

/-- EXT_SST writes SST_RAW (R129). -/
def execExtSst (s : State) : Outcome :=
  .next (s.setOut { s.out with sstRaw := sstRawOf s.byteF s.byteN })

/-- EXT_BATT writes BATT_RAW (R130). -/
def execExtBatt (s : State) : Outcome :=
  .next (s.setOut { s.out with battRaw := battRawOf s.byteN })

end Sys2Proof.Machine
end

