-- ==== Sys2Proof/Machine/Binary64.lean ====
section
/-! DEFINITION. IEEE 754 binary64 with round to nearest, ties to even (R148; the spec marks the format as
general knowledge: PRESUMED, log 11), on exact fractions, and the four renderings of R149 to R152. -/

namespace Sys2Proof.Machine

/-- The exact rational `num / den`; `den` is meant to be positive. -/
structure Frac where
  num : Int
  den : Nat
deriving DecidableEq, Repr

/-- The integer `n` as a fraction. -/
def Frac.ofInt (n : Int) : Frac := ⟨n, 1⟩

/-- Exact sum. -/
def Frac.add (x y : Frac) : Frac := ⟨x.num * y.den + y.num * x.den, x.den * y.den⟩

/-- Exact difference. -/
def Frac.sub (x y : Frac) : Frac := ⟨x.num * y.den - y.num * x.den, x.den * y.den⟩

/-- Exact product. -/
def Frac.mul (x y : Frac) : Frac := ⟨x.num * y.num, x.den * y.den⟩

/-- Exact quotient by a nonzero fraction, its denominator kept positive. -/
def Frac.div (x y : Frac) : Frac := ⟨x.num * y.den * y.num.sign, x.den * y.num.natAbs⟩

/-! ### Rounding -/

/-- `a / b` scaled by `2 ^ (-e)`, as numerator and denominator. -/
def scaleBy (a b : Nat) (e : Int) : Nat × Nat :=
  match e with
  | .ofNat k => (a, b * 2 ^ k)
  | .negSucc k => (a * 2 ^ (k + 1), b)

/-- The integer nearest `a / b`, a tie going to the even one. -/
def roundHalfEven (a b : Nat) : Nat :=
  let q := a / b
  let r := a % b
  if 2 * r < b then q
  else if b < 2 * r then q + 1
  else if q % 2 = 0 then q else q + 1

/-- The exponent of the last place at which `a / b` (both positive) has a 53-bit integer part, not
below that of the subnormals. -/
def lastPlace (a b : Nat) : Int :=
  let guess : Int := (a.log2 : Int) - (b.log2 : Int) - 52
  let scaled := scaleBy a b guess
  let e := if scaled.1 < scaled.2 * 2 ^ 52 then guess - 1 else guess
  max e (-1074)

/-- The encoding, without its sign, of the binary64 value nearest `a / b` (both positive). The exponent
field and the fraction are one number, so a significand that rounds up to `2 ^ 53` carries into the
exponent; beyond the largest finite value the encoding is that of infinity. -/
def roundMagnitude (a b : Nat) : Nat :=
  let e := lastPlace a b
  let scaled := scaleBy a b e
  min ((e + 1074).toNat * 2 ^ 52 + roundHalfEven scaled.1 scaled.2) (2047 * 2 ^ 52)

/-- `RNE64` of R149: the binary64 value nearest an exact rational, ties to even; exactly 0 gives +0. -/
def rne64 (x : Frac) : B64 :=
  if x.num = 0 then 0
  else if x.num < 0 then BitVec.ofNat 64 (2 ^ 63 + roundMagnitude x.num.natAbs x.den)
  else BitVec.ofNat 64 (roundMagnitude x.num.natAbs x.den)

/-! ### Reading an encoding -/

/-- The exponent field. -/
def b64Exponent (w : B64) : Nat := (w.extractLsb' 52 11).toNat

/-- The fraction field. -/
def b64Fraction (w : B64) : Nat := (w.extractLsb' 0 52).toNat

/-- Neither an infinity nor a NaN. -/
def b64Finite (w : B64) : Bool := b64Exponent w != 2047

/-- The exact value of a FINITE encoding; of no meaning for the others, which no rendering produces
(R148, log 11). -/
def b64Value (w : B64) : Frac :=
  let significand : Nat := if b64Exponent w = 0 then b64Fraction w else 2 ^ 52 + b64Fraction w
  let signed : Int := if w.msb then -(significand : Int) else significand
  let e : Nat := max (b64Exponent w) 1
  if 1075 ≤ e then ⟨signed * 2 ^ (e - 1075), 1⟩ else ⟨signed, 2 ^ (1075 - e)⟩

/-! ### One rounded operation at a time (STEPWISE_B64) -/

/-- Binary64 addition of finite values. -/
def b64Add (x y : B64) : B64 := rne64 ((b64Value x).add (b64Value y))

/-- Binary64 subtraction of finite values; an exact 0 is +0. -/
def b64Sub (x y : B64) : B64 := rne64 ((b64Value x).sub (b64Value y))

/-- Binary64 multiplication of finite values. -/
def b64Mul (x y : B64) : B64 := rne64 ((b64Value x).mul (b64Value y))

/-- Binary64 division of finite values by a nonzero one. -/
def b64Div (x y : B64) : B64 := rne64 ((b64Value x).div (b64Value y))

/-- A literal is first converted to the nearest binary64 value (R148). -/
def b64Literal (num : Int) (den : Nat) : B64 := rne64 ⟨num, den⟩

/-- An integer raw value converts exactly (R148). -/
def b64OfNat (n : Nat) : B64 := rne64 (.ofInt n)

/-! ### The renderings, `none` where FP_RENDER is NONE -/

/-- R149. -/
def renderLat (fp : FpRender) (raw : BitVec 30) : Option B64 :=
  match fp with
  | .none => none
  | .stepwiseB64 => some (b64Sub (b64Div (b64OfNat raw.toNat) (b64Literal 3600000 1)) (b64Literal 90 1))
  | .roundedB64 => some (rne64 ⟨(latFxOf raw).toInt, 3600000⟩)

/-- R150. -/
def renderLon (fp : FpRender) (raw : BitVec 31) : Option B64 :=
  match fp with
  | .none => none
  | .stepwiseB64 => some (b64Sub (b64Div (b64OfNat raw.toNat) (b64Literal 3600000 1)) (b64Literal 180 1))
  | .roundedB64 => some (rne64 ⟨(lonFxOf raw).toInt, 3600000⟩)

/-- R151. -/
def renderSst (fp : FpRender) (raw : BitVec 12) : Option B64 :=
  match fp with
  | .none => none
  | .stepwiseB64 => some (b64Sub (b64Mul (b64OfNat raw.toNat) (b64Literal 1 100)) (b64Literal 5 1))
  | .roundedB64 => some (rne64 ⟨(sstFxOf raw).toInt, 100⟩)

/-- R152. -/
def renderBatt (fp : FpRender) (raw : BitVec 4) : Option B64 :=
  match fp with
  | .none => none
  | .stepwiseB64 => some (b64Add (b64Div (b64OfNat raw.toNat) (b64Literal 2 1)) (b64Literal 5 1))
  | .roundedB64 => some (rne64 ⟨(battFxOf raw).toNat, 2⟩)

end Sys2Proof.Machine
end

