-- ==== Sys2Proof/Machine/Render.lean ====
section
/-! DEFINITION. The four binary64 renderers (42_rescale.md section 3): each reads the raw value its extractor wrote
and writes one field of `out`. Under FP_RENDER = NONE the operation does not exist (R148) and is refused by
name; DECODE does not run it there (R100). None writes a flag or raises an exception. -/

namespace Sys2Proof.Machine

/-- F64_LAT (R149). -/
def execF64Lat (s : State) : Outcome :=
  match renderLat s.fpRender s.out.latRaw with
  | none => .refused .f64OperationAbsent
  | some w => .next (s.setOut { s.out with latF64 := some w })

/-- F64_LON (R150). -/
def execF64Lon (s : State) : Outcome :=
  match renderLon s.fpRender s.out.lonRaw with
  | none => .refused .f64OperationAbsent
  | some w => .next (s.setOut { s.out with lonF64 := some w })

/-- F64_SST (R151). -/
def execF64Sst (s : State) : Outcome :=
  match renderSst s.fpRender s.out.sstRaw with
  | none => .refused .f64OperationAbsent
  | some w => .next (s.setOut { s.out with sstF64 := some w })

/-- F64_BATT (R152). -/
def execF64Batt (s : State) : Outcome :=
  match renderBatt s.fpRender s.out.battRaw with
  | none => .refused .f64OperationAbsent
  | some w => .next (s.setOut { s.out with battF64 := some w })

end Sys2Proof.Machine
end

