-- ==== Sys2Proof/Machine/Rescale.lean ====
section
/-! DEFINITION. The five rescalers (42_rescale.md section 2): each reads the raw value its extractor wrote (R103)
and writes one exact fixed-point field of `out`. None writes a flag or raises an exception (R140). -/

namespace Sys2Proof.Machine

/-- CVT_YEAR (R141). -/
def execCvtYear (s : State) : Outcome :=
  .next (s.setOut { s.out with year := yearOf s.out.yearRaw })

/-- CVT_LAT (R142). -/
def execCvtLat (s : State) : Outcome :=
  .next (s.setOut { s.out with latFx := latFxOf s.out.latRaw })

/-- CVT_LON (R143). -/
def execCvtLon (s : State) : Outcome :=
  .next (s.setOut { s.out with lonFx := lonFxOf s.out.lonRaw })

/-- CVT_SST (R144). -/
def execCvtSst (s : State) : Outcome :=
  .next (s.setOut { s.out with sstFx := sstFxOf s.out.sstRaw })

/-- CVT_BATT (R145). -/
def execCvtBatt (s : State) : Outcome :=
  .next (s.setOut { s.out with battFx := battFxOf s.out.battRaw })

end Sys2Proof.Machine
end

