-- ==== Sys2Proof/Machine/Transaction.lean ====
section
/-! DEFINITION. The DECODE transaction (40_decode.md): the length check, the operand load, the datapath
operations, the response. -/

namespace Sys2Proof.Machine

/-- R101: the buffer has fewer than 14 bytes. -/
def lengthShort (len : ReqLen) : Bool :=
  len.toNat < 14

/-- The extractors and rescalers in the order of R100's pseudocode; no order changes a result (R103). -/
def fixedOps : List (State → Outcome) :=
  [execExtYear, execExtMonth, execExtDay, execExtSecs, execExtLat, execExtLon, execExtSubm, execExtGps,
   execExtSst, execExtBatt, execCvtYear, execCvtLat, execCvtLon, execCvtSst, execCvtBatt]

/-- The renderers, which exist only when FP_RENDER is not NONE (R103, R148). -/
def renderOps (fp : FpRender) : List (State → Outcome) :=
  match fp with
  | .none => []
  | .stepwiseB64 => [execF64Lat, execF64Lon, execF64Sst, execF64Batt]
  | .roundedB64 => [execF64Lat, execF64Lon, execF64Sst, execF64Batt]

/-- The part of DECODE after a passed length check (R102, R103, R104), on the buffer `m` of its request. A read
outside the buffer would end it with TruncatedInputError (R53), which the length check rules out. -/
def decodeRecord (m : Memory) (s : State) : Outcome :=
  match loadOperands m s with
  | none => .next (raiseTruncated s)
  | some loaded =>
    andThen (runAll (fixedOps ++ renderOps s.fpRender) loaded) fun done => .next (respondOk done)

/-- DECODE (R100, R101): a short buffer takes TruncatedInputError without a read; every other request
continues to the end. The buffer it reads is the one snapshot that its operands are (R57); it writes neither that nor
the port (R51). -/
def execDecode (len : ReqLen) (data : Record) (s : State) : Outcome :=
  if lengthShort len then .next (raiseTruncated s) else decodeRecord (presentBuffer len data) s.clearOut

end Sys2Proof.Machine
end

