-- ==== Sys2Proof/Machine/Dispatch.lean ====
section
/-! DEFINITION. One arm for each operation of spec/opcode_table.json. -/

namespace Sys2Proof.Machine

def exec (i : Instr) (s : State) : Host.Outcome State Fault Refusal :=
  match i with
  | .decode len data => Sys2Proof.Machine.execDecode len data s
  | .extYear => Sys2Proof.Machine.execExtYear s
  | .extMonth => Sys2Proof.Machine.execExtMonth s
  | .extDay => Sys2Proof.Machine.execExtDay s
  | .extSecs => Sys2Proof.Machine.execExtSecs s
  | .extLat => Sys2Proof.Machine.execExtLat s
  | .extLon => Sys2Proof.Machine.execExtLon s
  | .extSubm => Sys2Proof.Machine.execExtSubm s
  | .extGps => Sys2Proof.Machine.execExtGps s
  | .extSst => Sys2Proof.Machine.execExtSst s
  | .extBatt => Sys2Proof.Machine.execExtBatt s
  | .cvtYear => Sys2Proof.Machine.execCvtYear s
  | .cvtLat => Sys2Proof.Machine.execCvtLat s
  | .cvtLon => Sys2Proof.Machine.execCvtLon s
  | .cvtSst => Sys2Proof.Machine.execCvtSst s
  | .cvtBatt => Sys2Proof.Machine.execCvtBatt s
  | .f64Lat => Sys2Proof.Machine.execF64Lat s
  | .f64Lon => Sys2Proof.Machine.execF64Lon s
  | .f64Sst => Sys2Proof.Machine.execF64Sst s
  | .f64Batt => Sys2Proof.Machine.execF64Batt s

end Sys2Proof.Machine
end

