-- ==== Sys2Proof/Machine/Fetch.lean ====
section
/-! DEFINITION. What the step reads from the request port. The block fetches no instructions and has no
program counter (R33): the request on the port is the whole instruction (R70). -/

namespace Sys2Proof.Machine

/-- The request on the port as one request word (log 1). -/
def State.requestWord (s : State) : ReqWord :=
  s.reqData ++ s.reqLen

/-- The operation that the request on the port selects. -/
def fetch (s : State) : Instr :=
  decodeWord s.requestWord

end Sys2Proof.Machine
end

