-- ==== Sys2Proof/Machine/Step.lean ====
section
/-! DEFINITION. One step of the block, and a request placed where the step reads it. -/

namespace Sys2Proof.Machine

/-- One step: an outstanding request is answered in one DECODE transaction (R20, R108). A request that the
host changed gets an unconstrained response (R193). With no request presented the block adds no step of its
own (R108): nothing changes (log 14). -/
def step (s : State) : Host.Outcome State Fault Refusal :=
  if s.reqValid then
    if s.reqStable then exec (fetch s) s else .next (respondDisturbed s)
  else .next s

/-- The request of a table word is on the port, held stable (log 1, log 3). -/
def State.withFetchWord (s : State) (nbits w : Nat) : State :=
  s.latch (wordLen (tableWord nbits w)) (wordData (tableWord nbits w))

end Sys2Proof.Machine
end

