-- ==== Sys2Proof/Machine/HostPort.lean ====
section
/-! DEFINITION. What comes to the block from outside: the host's one move, presenting a request (10_state.md section 5),
and reset (70_reset_and_hazards.md), which is no move of the host. The host reads the response through Flags.lean. -/

namespace Sys2Proof.Machine

/-- The ports of one request. -/
structure Request where
  len  : ReqLen
  data : Record
deriving DecidableEq, Repr

/-- The request of a buffer of any length (R21 to R23). -/
def Request.ofBuffer (bytes : List Byte) : Request :=
  ⟨saturateLen bytes.length, packLanes bytes⟩

/-- The host drives the request port. With no request outstanding this presents one (R20). With one
outstanding, the same request again is the same request held stable, and any other is a change during the
transaction, the host error of R193 (log 12, log 21). A difference in absent lanes alone is no change, since
those lanes hold no buffer bytes (R23) and the model does not keep them (DESIGN CHOICE, log 27). -/
def State.present (s : State) (r : Request) : State :=
  if s.reqValid then
    if s.reqLen = r.len ∧ s.buf = presentBuffer r.len r.data then s
    else { s.latch r.len r.data with reqStable := false }
  else s.latch r.len r.data

/-- A block built with the given FP_RENDER, right after reset (R190, log 9). -/
def State.built (fp : FpRender) : State :=
  { State.reset with fpRender := fp }

/-- The block after a reset, which may come between any two steps (R190). An outstanding request is abandoned
(R197). FP_RENDER is no register and stays (R35); the count of free values goes on (log 20). The spec names no
agent that drives reset, and it is no move of the host (R37, log 26). -/
def State.afterReset (s : State) : State :=
  { State.built s.fpRender with freeCount := s.freeCount }

/-- R37: the host's only move on the block is to present a request. (A change of an outstanding request, the host error
of R193, is made by presenting another one: log 12.) -/
inductive HostMove where
  | present (r : Request)
deriving DecidableEq, Repr

/-- The state after a move of the host. -/
def State.drive (s : State) (m : HostMove) : State :=
  match m with
  | .present r => s.present r

end Sys2Proof.Machine
end

