-- ==== Sys2Proof/Machine/Run.lean ====
section
/-! DEFINITION. Runs (40_decode.md section 2) and several blocks side by side (60_exceptions.md section 6). -/

namespace Sys2Proof.Machine

/-- One request presented and answered: the response and the state after it (R27, R194). None where the
block did not answer. -/
def serve (s : State) (r : Request) : Option (Response × State) :=
  match step (s.present r) with
  | .next s' => s'.rsp.map fun a => (a, s')
  | .fault _ => none
  | .refused _ => none

/-- R107: the responses of a run, in order, and its final state. -/
def observe (s : State) (reqs : List Request) : Option (List Response × State) :=
  match reqs with
  | [] => some ([], s)
  | r :: rest =>
    match serve s r with
    | none => none
    | some (a, s') => (observe s' rest).map fun t => (a :: t.1, t.2)

/-- N_INSTANCES >= 1 blocks of one build: the first, the others, and the FP_RENDER they are all built with (R180,
log 19). -/
structure System where
  fpRender : FpRender
  first    : State
  rest     : List State
deriving DecidableEq, Repr

/-- `n + 1` instances, each starting from its own reset (R180). -/
def System.start (fp : FpRender) (n : Nat) : System where
  fpRender := fp
  first := .built fp
  rest := List.replicate n (.built fp)

/-- Instance `k`, which has the FP_RENDER of the system. None where there is no such instance. -/
def System.block (sys : System) (k : Nat) : Option State :=
  match k with
  | 0 => some { sys.first with fpRender := sys.fpRender }
  | j + 1 => sys.rest[j]?.map fun s => { s with fpRender := sys.fpRender }

/-- Instance `k` becomes `t`; the others stay (R61). -/
def System.setBlock (sys : System) (k : Nat) (t : State) : System :=
  match k with
  | 0 => { sys with first := t }
  | j + 1 => { sys with rest := sys.rest.set j t }

/-- Instance `k` takes one step; which one moves is the caller's choice (log 19). None where there is no such
instance or it does not go on. -/
def System.stepAt (sys : System) (k : Nat) : Option System :=
  match sys.block k with
  | none => none
  | some s =>
    match step s with
    | .next t => some (sys.setBlock k t)
    | .fault _ => none
    | .refused _ => none

/-- The host of instance `k` moves. -/
def System.driveAt (sys : System) (k : Nat) (m : HostMove) : System :=
  match sys.block k with
  | none => sys
  | some s => sys.setBlock k (s.drive m)

/-- Instance `k` is reset: each instance has its own reset (R180, R190). -/
def System.resetAt (sys : System) (k : Nat) : System :=
  match sys.block k with
  | none => sys
  | some s => sys.setBlock k s.afterReset

end Sys2Proof.Machine
end

