-- ==== Sys2Proof/Safety.lean ====
section
/-! DEFINITION. The terms in which claims speak: what a request must be answered with, told from the 112-bit
view of the record alone (R8, R71), what a sound successful response is (R146), and what a state of a block
whose host keeps its duties looks like. -/

namespace Sys2Proof.Machine

/-- `v[hi:lo]` of R7. -/
def slice {w : Nat} (v : BitVec w) (hi lo : Nat) : BitVec (hi - lo + 1) :=
  v.extractLsb' lo (hi - lo + 1)

/-- The field outputs that the field table of R71 (its record bits) and the exact de-scaling of R141 to
R145 give for a record. The binary64 fields are the renderings of the raw values. -/
def recordFields (fp : FpRender) (data : Record) : DecodedTelemetry where
  year := BitVec.ofNat 12 (2000 + (slice data 111 106).toNat)
  yearRaw := slice data 111 106
  month := slice data 105 102
  day := slice data 101 97
  secs := slice data 96 80
  latRaw := slice data 79 50
  latFx := BitVec.ofInt 31 ((slice data 79 50).toNat - 324000000)
  lonRaw := slice data 47 17
  lonFx := BitVec.ofInt 32 ((slice data 47 17).toNat - 648000000)
  submerged := data.getLsbD 15
  gpsFlag := slice data 14 13
  sstRaw := slice data 12 1
  sstFx := BitVec.ofInt 13 ((slice data 12 1).toNat - 500)
  battRaw := slice data 3 0
  battFx := BitVec.ofNat 5 ((slice data 3 0).toNat + 10)
  latF64 := renderLat fp (slice data 79 50)
  lonF64 := renderLon fp (slice data 47 17)
  sstF64 := renderSst fp (slice data 12 1)
  battF64 := renderBatt fp (slice data 3 0)

/-- What a request is answered with (R100, R101): it depends on the request and FP_RENDER alone (R105). -/
def answerOf (fp : FpRender) (len : ReqLen) (data : Record) : Response :=
  if len.toNat < 14 then .err .truncatedInputError else .ok (recordFields fp data)

/-- A successful response in which every field is what its raw field gives, in the ranges of R146, with the
bits that sstRaw and batteryRaw share (R77), and with binary64 fields exactly when FP_RENDER is not NONE. -/
def DecodedTelemetry.Sound (fp : FpRender) (d : DecodedTelemetry) : Prop :=
  d.year.toNat = 2000 + d.yearRaw.toNat ∧ 2000 ≤ d.year.toNat ∧ d.year.toNat ≤ 2063 ∧
  d.latFx.toInt = d.latRaw.toNat - 324000000 ∧ -324000000 ≤ d.latFx.toInt ∧ d.latFx.toInt ≤ 749741823 ∧
  d.lonFx.toInt = d.lonRaw.toNat - 648000000 ∧ -648000000 ≤ d.lonFx.toInt ∧ d.lonFx.toInt ≤ 1499483647 ∧
  d.sstFx.toInt = d.sstRaw.toNat - 500 ∧ -500 ≤ d.sstFx.toInt ∧ d.sstFx.toInt ≤ 3595 ∧
  d.battFx.toNat = d.battRaw.toNat + 10 ∧ 10 ≤ d.battFx.toNat ∧ d.battFx.toNat ≤ 25 ∧
  d.sstRaw.toNat % 8 = d.battRaw.toNat / 2 ∧
  (d.latF64.isSome = true ↔ fp ≠ .none) ∧ (d.lonF64.isSome = true ↔ fp ≠ .none) ∧
  (d.sstF64.isSome = true ↔ fp ≠ .none) ∧ (d.battF64.isSome = true ↔ fp ≠ .none)

/-- The nineteen datapath operations of DECODE (R80). -/
def datapathOps : List Instr :=
  [.extYear, .extMonth, .extDay, .extSecs, .extLat, .extLon, .extSubm, .extGps, .extSst, .extBatt,
   .cvtYear, .cvtLat, .cvtLon, .cvtSst, .cvtBatt, .f64Lat, .f64Lon, .f64Sst, .f64Batt]

/-- The pairs of an extractor and an operation that reads the raw value it produced (R103). -/
def readsOutputOf : List (Instr × Instr) :=
  [(.extYear, .cvtYear), (.extLat, .cvtLat), (.extLat, .f64Lat), (.extLon, .cvtLon), (.extLon, .f64Lon),
   (.extSst, .cvtSst), (.extSst, .f64Sst), (.extBatt, .cvtBatt), (.extBatt, .f64Batt)]

/-- No transaction is in progress: the operand words and `out` hold what they hold at reset (R25, log 4). -/
def State.Quiet (s : State) : Prop :=
  s.wordT = 0 ∧ s.wordL1 = 0 ∧ s.wordL2 = 0 ∧ s.byteF = 0 ∧ s.byteN = 0 ∧ s.out = .blank

/-- A block between transactions whose host keeps its duties: an outstanding request is held stable (R193);
the request buffer lists the presented bytes, offset 0 first (R22, R50), in canonical form; no transaction
is in progress; a successful response is sound. -/
structure State.Inv (s : State) : Prop where
  stable : s.reqValid = true → s.reqStable = true
  bufferCanonical : Memory.wf s.buf
  bufferOffsets : s.buf.map Prod.fst = List.range (presentedBytes s.reqLen)
  quiet : s.Quiet
  responseSound : ∀ d, s.rsp = some (.ok d) → d.Sound s.fpRender

/-- The exact rational an encoding or a fraction stands for. -/
def Frac.toRat (x : Frac) : ℚ := (x.num : ℚ) / (x.den : ℚ)

/-- `w` is a binary64 value nearest `x`, and the even one of two that are equally near (R148). -/
def NearestB64 (x : ℚ) (w : B64) : Prop :=
  b64Finite w = true ∧
  ∀ v : B64, b64Finite v = true →
    |(b64Value w).toRat - x| ≤ |(b64Value v).toRat - x| ∧
    (|(b64Value w).toRat - x| = |(b64Value v).toRat - x| → v ≠ w → w.getLsbD 0 = false)

/-- Neither a NaN, nor an infinity, nor a subnormal, nor a negative zero: a normal number or +0 (R148). -/
def OrdinaryB64 (w : B64) : Prop :=
  w = 0 ∨ (b64Exponent w ≠ 0 ∧ b64Exponent w ≠ 2047)

end Sys2Proof.Machine
end

