-- ==== Sys2Proof/Certificates/Slice0/Obligations.lean ====
section
/-! DEFINITION. The statements for the provers. "log n" is notes/assumptions/n.md. -/

open Sys2Proof Sys2Proof.Machine

/-! ### Reset -/

/-- R190: after reset no response exists, `rsp_valid` and `rsp_err` are 0, every field output is driven to zero (the
binary64 outputs too in a block that has them), and a model's read of a field faults. It holds at `State.reset`, in
a block of any build right after reset, and after a reset in any state. -/
def Obligations.ResetClearsResponse : Prop :=
  ∀ s : State, ∀ r ∈ [State.reset, State.built s.fpRender, s.afterReset],
    r.rsp = none ∧ r.rspValid = false ∧ r.rspErr = false ∧ r.readFields = .fault .fieldReadBeforeResponse ∧
    { r.portFields with latF64 := none, lonF64 := none, sstF64 := none, battF64 := none } = .blank ∧
    ∀ p ∈ [r.portFields.latF64, r.portFields.lonF64, r.portFields.sstF64, r.portFields.battF64],
      p = if r.fpRender = .none then none else some 0

/-- The machine after reset meets the invariant, also a block that is reset during a request (R197). The values
of the operand words and of the request port are the model's choice (log 4, log 5). -/
def Obligations.ResetMeetsInvariant : Prop :=
  State.reset.Inv ∧ ∀ s : State, s.afterReset.Inv ∧ s.afterReset.fpRender = s.fpRender

/-- R192, R105: the first request after a reset gets the response it gets from any other state of the block. -/
def Obligations.FirstRequestNeedsNoBoot : Prop :=
  ∀ (s s' : State) (r : Request), s'.reqValid = false → s'.fpRender = s.fpRender →
    ∃ t t', serve s.afterReset r = some (answerOf s.fpRender r.len r.data, t) ∧
      serve s' r = some (answerOf s.fpRender r.len r.data, t') ∧ t.rsp = t'.rsp

/-! ### The invariant -/

/-- Every step keeps the invariant: the request buffer stays canonical, no transaction is left in progress, and
every successful response is sound (R31, R77, R146). FP_RENDER never changes (R35). What the idle operand words hold is
the model's choice (log 4). -/
def Obligations.StepKeepsInvariant : Prop :=
  ∀ s t : State, s.Inv → step s = .next t → t.Inv ∧ t.fpRender = s.fpRender

/-- A host that presents one request at a time keeps the invariant (R193, R194), and presenting the
outstanding request again changes nothing (the model's choice: log 7, log 21). -/
def Obligations.PresentKeepsInvariant : Prop :=
  ∀ (s : State) (r : Request), s.Inv → s.reqValid = false →
    (s.present r).Inv ∧ (s.present r).rsp = s.rsp ∧ (s.present r).rspValid = false ∧
    (s.present r).present r = s.present r

/-- R37: the host's only move is to present a request, and it writes the request port and no other state of the
block, in every state (the mark that the port is stable is the model's own: log 12). -/
def Obligations.HostMoveWritesOnlyPort : Prop :=
  ∀ (s : State) (m : HostMove), ∃ r, m = .present r ∧
    ∃ stable, s.drive m = { s with
      reqValid := true, reqStable := stable, reqLen := r.len, buf := presentBuffer r.len r.data }

/-! ### The step -/

/-- R106, R108: from every state the step answers; it neither faults nor refuses, and an outstanding request is
answered with one response, after which none is outstanding (R27; log 6). That a step with no request presented changes
nothing is the model's choice (log 14). -/
def Obligations.EveryStepAnswers : Prop :=
  ∀ s : State, ∃ t, step s = .next t ∧ t.reqValid = false ∧ t.fpRender = s.fpRender ∧
    (s.reqValid = true → t.rsp.isSome = true ∧ t.rspValid = true) ∧
    (s.reqValid = false → t = s)

/-- A step runs the operation that the request on the port decodes to. -/
def Obligations.StepRunsDecodedRequest : Prop :=
  ∀ (s : State) (i : Instr), s.reqValid = true → s.reqStable = true → decodeWord s.requestWord = i →
    step s = exec i s

/-- A well-formed request that is put on the port is the request that the step reads from it (R22, R23),
and so the step is its DECODE; an ill-formed one, whose absent lanes are not zero, gets the error too. The machine reads it
as one word, the model's choice (log 1). -/
def Obligations.PresentedRequestIsRun : Prop :=
  ∀ (s : State) (len : ReqLen) (data : Record),
    (∀ fp, (Instr.decode len data).wellFormed fp = true →
      fetch (s.latch len data) = .decode len data ∧ (s.latch len data).reqData = data) ∧
    step (s.latch len data) = exec (.decode len data) (s.latch len data)

/-- With no request presented the block adds no step of its own (R108; log 14). -/
def Obligations.NoRequestNoChange : Prop :=
  ∀ s : State, s.reqValid = false → step s = .next s

/-- R193: a request that the host changed is answered once, with any response; the model says nothing of its
fields but that the binary64 ones are present exactly when FP_RENDER is not NONE (log 12). The request buffer is not
written (R51). That the request is over with the response and what the operand words and `out` then hold is the model's
choice (log 4, log 6). -/
def Obligations.DisturbedRequestIsAnswered : Prop :=
  ∀ s : State, s.reqValid = true → s.reqStable = false →
    ∃ t, step s = .next t ∧ t.rspValid = true ∧ t.reqValid = false ∧ t.reqStable = true ∧ t.buf = s.buf ∧ t.Quiet ∧
      t.fpRender = s.fpRender ∧
      (t.rsp = some (.err .truncatedInputError) ∨
        ∃ d, t.rsp = some (.ok d) ∧
          (d.latF64.isSome = true ↔ s.fpRender ≠ .none) ∧ (d.lonF64.isSome = true ↔ s.fpRender ≠ .none) ∧
          (d.sstF64.isSome = true ↔ s.fpRender ≠ .none) ∧ (d.battF64.isSome = true ↔ s.fpRender ≠ .none))

/-! ### DECODE -/

/-- R101, R170, R173: a buffer of fewer than 14 bytes gets TruncatedInputError, whatever its bytes hold (R172).
The request is over, and the length and the buffer on the port are not written (R51); what `req_valid`, the operand words
and `out` hold after a response is the model's choice (log 4, log 6). -/
def Obligations.DecodeShortBufferIsTruncated : Prop :=
  ∀ (s : State) (len : ReqLen) (data : Record), len.toNat < 14 →
    exec (.decode len data) s = .next
      { fpRender := s.fpRender, reqValid := false, reqStable := true, reqLen := s.reqLen, buf := s.buf,
        wordT := 0, wordL1 := 0, wordL2 := 0, byteF := 0, byteN := 0, out := .blank,
        rsp := some (.err .truncatedInputError), freeCount := s.freeCount }

/-- R100, R71: a buffer of 14 bytes or more gets a successful response whose fields are the record bits of the
field table and their exact de-scaled values; nothing else of the state survives or changes. The length
and the buffer on the port are not written (R51). YEAR is held in 12 bits (log 24); what `req_valid`, the operand words and
`out` hold after a response is the model's choice (log 4, log 6). -/
def Obligations.DecodeLongBufferGivesRecordFields : Prop :=
  ∀ (s : State) (len : ReqLen) (data : Record), 14 ≤ len.toNat →
    exec (.decode len data) s = .next
      { fpRender := s.fpRender, reqValid := false, reqStable := true, reqLen := s.reqLen, buf := s.buf,
        wordT := 0, wordL1 := 0, wordL2 := 0, byteF := 0, byteN := 0, out := .blank,
        rsp := some (.ok (recordFields s.fpRender data)), freeCount := s.freeCount }

/-- R170, R28: DECODE raises TruncatedInputError exactly when the buffer has fewer than 14 bytes, and `rsp_err`
says so; any other request decodes. -/
def Obligations.TruncatedExactlyWhenShort : Prop :=
  ∀ (s : State) (len : ReqLen) (data : Record), ∃ t, exec (.decode len data) s = .next t ∧
    (t.rsp = some (.err .truncatedInputError) ↔ len.toNat < 14) ∧ (t.rspErr = true ↔ len.toNat < 14) ∧
    ((∃ d, t.rsp = some (.ok d)) ↔ 14 ≤ len.toNat)

/-- R32, R105, R106: the response to a request is the same bit for bit whatever came before. Any two
states of blocks built alike give it. -/
def Obligations.ResponseIgnoresHistory : Prop :=
  ∀ (s s' : State) (len : ReqLen) (data : Record), s.fpRender = s'.fpRender →
    ∃ t t', exec (.decode len data) s = .next t ∧ exec (.decode len data) s' = .next t' ∧
      t.rsp = t'.rsp ∧ t.rsp.isSome = true

/-- R79: bytes at offset 14 and above change nothing. -/
def Obligations.TrailingBytesIgnored : Prop :=
  ∀ (s : State) (bytes extra : List Byte), 14 ≤ bytes.length →
    exec (decodeBuffer (bytes ++ extra)) s = exec (decodeBuffer bytes) s

/-- R78: no output depends on rec[49:48] or rec[16]. -/
def Obligations.UnusedBitsIgnored : Prop :=
  ∀ (s : State) (len : ReqLen) (data data' : Record),
    (∀ i < 112, i ≠ 49 → i ≠ 48 → i ≠ 16 → data.getLsbD i = data'.getLsbD i) →
    exec (.decode len data) s = exec (.decode len data') s

/-- R131: each raw output depends on exactly the record bits of its row's `reads_mask` in the opcode table: two
records give the same output exactly when they agree there. -/
def Obligations.OutputsReadExactlyTheirBits : Prop :=
  ∀ (s : State) (len : ReqLen) (data data' : Record), 14 ≤ len.toNat →
    ∃ t t' d d', exec (.decode len data) s = .next t ∧ exec (.decode len data') s = .next t' ∧
      t.rsp = some (.ok d) ∧ t'.rsp = some (.ok d') ∧
      (d.yearRaw = d'.yearRaw ↔
        data &&& 0xFC00000000000000000000000000#112 = data' &&& 0xFC00000000000000000000000000#112) ∧
      (d.month = d'.month ↔
        data &&& 0x03C0000000000000000000000000#112 = data' &&& 0x03C0000000000000000000000000#112) ∧
      (d.day = d'.day ↔
        data &&& 0x003E000000000000000000000000#112 = data' &&& 0x003E000000000000000000000000#112) ∧
      (d.secs = d'.secs ↔
        data &&& 0x0001FFFF00000000000000000000#112 = data' &&& 0x0001FFFF00000000000000000000#112) ∧
      (d.latRaw = d'.latRaw ↔
        data &&& 0x00000000FFFFFFFC000000000000#112 = data' &&& 0x00000000FFFFFFFC000000000000#112) ∧
      (d.lonRaw = d'.lonRaw ↔
        data &&& 0x0000000000000000FFFFFFFE0000#112 = data' &&& 0x0000000000000000FFFFFFFE0000#112) ∧
      (d.submerged = d'.submerged ↔
        data &&& 0x0000000000000000000000008000#112 = data' &&& 0x0000000000000000000000008000#112) ∧
      (d.gpsFlag = d'.gpsFlag ↔
        data &&& 0x0000000000000000000000006000#112 = data' &&& 0x0000000000000000000000006000#112) ∧
      (d.sstRaw = d'.sstRaw ↔
        data &&& 0x0000000000000000000000001FFE#112 = data' &&& 0x0000000000000000000000001FFE#112) ∧
      (d.battRaw = d'.battRaw ↔
        data &&& 0x000000000000000000000000000F#112 = data' &&& 0x000000000000000000000000000F#112)

/-- R131: toggling only bit 7 of byte 12 changes SUBMERGED and no other output; toggling only bits 6:5 of byte 12
changes GPSFLAG and no other output. -/
def Obligations.FlagBitsAreIndependent : Prop :=
  ∀ (s : State) (len : ReqLen) (data mask : Record), 14 ≤ len.toNat → mask ∈ [0x2000#112, 0x4000#112, 0x6000#112] →
    ∃ t u v d, exec (.decode len data) s = .next t ∧ t.rsp = some (.ok d) ∧
      exec (.decode len (data ^^^ 0x8000#112)) s = .next u ∧ u.rsp = some (.ok { d with submerged := !d.submerged }) ∧
      exec (.decode len (data ^^^ mask)) s = .next v ∧
      ∃ g, g ≠ d.gpsFlag ∧ v.rsp = some (.ok { d with gpsFlag := g })

/-! ### Reading the request buffer -/

/-- R53, R52: a read of 1 or 4 bytes inside the presented bytes is the big-endian sum of its bytes, and one with
`addr + n > len` is not performed. That one beyond offset 13 of a longer buffer (len 15 stands for 15 or more) is not
performed either is the model's choice (log 15): those bytes are not presented (R22) and no read of DECODE reaches them
(R54). -/
def Obligations.MemReadIsBigEndian : Prop :=
  ∀ (len : ReqLen) (data : Record) (addr n : Nat), n = 1 ∨ n = 4 →
    (addr + n ≤ presentedBytes len →
      memRead (presentBuffer len data) addr n =
        some (∑ i ∈ Finset.range n, (lane data (addr + i)).toNat * 2 ^ (8 * (n - 1 - i)))) ∧
    (len.toNat < addr + n → memRead (presentBuffer len data) addr n = none) ∧
    (14 < addr + n → memRead (presentBuffer len data) addr n = none)

/-- R24, R55: the operand load from the buffer of a request that passes the length check writes T, L1, L2, F and N with
rec[111:80], rec[79:48], rec[47:16], rec[15:8] and rec[7:0], and nothing else; the load of a short request
reads nothing (R25). -/
def Obligations.OperandLoadReadsRecord : Prop :=
  ∀ (s : State) (len : ReqLen) (data : Record),
    (14 ≤ len.toNat →
      loadOperands (presentBuffer len data) s = some { s with
        wordT := slice data 111 80, wordL1 := slice data 79 48, wordL2 := slice data 47 16,
        byteF := slice data 15 8, byteN := slice data 7 0 }) ∧
    (len.toNat < 14 → loadOperands (presentBuffer len data) s = none)

/-- R22, R50, R57: in every state that meets the invariant, the buffer that DECODE reads, made of the ports that the step
reads, is the request buffer of the host, cell for cell. -/
def Obligations.DecodeReadsHostBuffer : Prop :=
  ∀ s : State, s.Inv →
    presentBuffer (wordLen s.requestWord) (wordData s.requestWord) = s.buf

/-- R51: the block never writes the request buffer: no operation and no step, from any state, changes a cell of it or the
length beside it. -/
def Obligations.RequestBufferNeverWritten : Prop :=
  ∀ s t : State, ((∃ i, exec i s = .next t) ∨ step s = .next t) →
    t.buf = s.buf ∧ t.reqLen = s.reqLen ∧ t.reqData = s.reqData ∧ ∀ a, readByte t.buf a = readByte s.buf a

/-! ### Extractors -/

/-- R121 to R124, R72: the four extractors of T write the four contiguous fields of T, and nothing else. -/
def Obligations.ExtractorsOfWordT : Prop :=
  ∀ s : State,
    exec .extYear s = .next { s with out := { s.out with yearRaw := slice s.wordT 31 26 } } ∧
    exec .extMonth s = .next { s with out := { s.out with month := slice s.wordT 25 22 } } ∧
    exec .extDay s = .next { s with out := { s.out with day := slice s.wordT 21 17 } } ∧
    exec .extSecs s = .next { s with out := { s.out with secs := slice s.wordT 16 0 } }

/-- R125, R126, R73, R74: latBits is L1[31:2] and lonBits is L2[31:1], both unsigned; nothing else is written. -/
def Obligations.ExtractorsOfPosition : Prop :=
  ∀ s : State,
    exec .extLat s = .next { s with out := { s.out with latRaw := slice s.wordL1 31 2 } } ∧
    exec .extLon s = .next { s with out := { s.out with lonRaw := slice s.wordL2 31 1 } }

/-- R127, R128, R75: Submerged is F[7] and GPSFlag is F[6:5]; nothing else is written. -/
def Obligations.ExtractorsOfByteF : Prop :=
  ∀ s : State,
    exec .extSubm s = .next { s with out := { s.out with submerged := s.byteF.getLsbD 7 } } ∧
    exec .extGps s = .next { s with out := { s.out with gpsFlag := slice s.byteF 6 5 } }

/-- R129, R130, R76: sstRaw is F[4:0] then N[7:1] and batteryRaw is N[3:0]; nothing else is written. -/
def Obligations.ExtractorsOfSstAndBattery : Prop :=
  ∀ s : State,
    exec .extSst s = .next { s with out := { s.out with sstRaw := slice s.byteF 4 0 ++ slice s.byteN 7 1 } } ∧
    exec .extBatt s = .next { s with out := { s.out with battRaw := slice s.byteN 3 0 } }

/-- R77: sstRaw and batteryRaw share N[3:1], `batteryRaw = ((sstRaw & 0x7) << 1) | N[0]`. -/
def Obligations.SstAndBatteryShareBits : Prop :=
  ∀ s : State, ∃ t, andThen (exec .extSst s) (exec .extBatt) = .next t ∧
    t.out.battRaw = ((t.out.sstRaw &&& 7#12).setWidth 4 <<< 1) ||| (s.byteN &&& 1#8).setWidth 4 ∧
    t.out.battRaw.toNat = 2 * (t.out.sstRaw.toNat % 8) + s.byteN.toNat % 2

/-- R103: the order in which the nineteen datapath operations are evaluated changes no result: any two of them commute
in every state, but for an extractor and an operation that reads the raw value it produced. (Where FP_RENDER is NONE, an
F64_ operation is refused in either order: log 10.) -/
def Obligations.EvaluationOrderIsInvisible : Prop :=
  ∀ (s : State) (i j : Instr), i ∈ datapathOps → j ∈ datapathOps → (i, j) ∉ readsOutputOf → (j, i) ∉ readsOutputOf →
    andThen (exec i s) (exec j) = andThen (exec j s) (exec i)

/-- R25, R51, R103: no datapath operation writes the request buffer, the request port, an operand word, the
response or anything else but `out`. -/
def Obligations.DatapathWritesOnlyOut : Prop :=
  ∀ (i : Instr) (s t : State), (∀ len data, i ≠ .decode len data) → exec i s = .next t →
    t = { s with out := t.out } ∧ ∀ a, readByte t.buf a = readByte s.buf a

/-! ### Rescalers -/

/-- R141, R145: YEAR is 2000 plus YEAR_RAW, in 12 bits (the model's choice: log 24), and BATT_FX is BATT_RAW
plus 10, exactly, and nothing else is written. -/
def Obligations.ConvertYearAndBattery : Prop :=
  ∀ s : State,
    (∃ y, exec .cvtYear s = .next { s with out := { s.out with year := y } } ∧
      y.toNat = 2000 + s.out.yearRaw.toNat) ∧
    (∃ b, exec .cvtBatt s = .next { s with out := { s.out with battFx := b } } ∧
      b.toNat = s.out.battRaw.toNat + 10)

/-- R142, R143, R144: LAT_FX, LON_FX and SST_FX, read as two's complement, are the raw values minus 324_000_000,
648_000_000 and 500 as exact integers, so no output width overflows (R140); nothing else is written. -/
def Obligations.ConvertPositionAndSst : Prop :=
  ∀ s : State,
    (∃ q, exec .cvtLat s = .next { s with out := { s.out with latFx := q } } ∧
      q.toInt = s.out.latRaw.toNat - 324000000) ∧
    (∃ q, exec .cvtLon s = .next { s with out := { s.out with lonFx := q } } ∧
      q.toInt = s.out.lonRaw.toNat - 648000000) ∧
    (∃ q, exec .cvtSst s = .next { s with out := { s.out with sstFx := q } } ∧
      q.toInt = s.out.sstRaw.toNat - 500)

/-- R10, R12: the fixed-point fields of every successful response stand for the source's formulas read over exact
rationals. -/
def Obligations.FixedPointIsExactFormula : Prop :=
  ∀ (s : State) (len : ReqLen) (data : Record), 14 ≤ len.toNat →
    ∃ t d, exec (.decode len data) s = .next t ∧ t.rsp = some (.ok d) ∧
      (d.latFx.toInt : ℚ) / 3600000 = (d.latRaw.toNat : ℚ) / 3600000 - 90 ∧
      (d.lonFx.toInt : ℚ) / 3600000 = (d.lonRaw.toNat : ℚ) / 3600000 - 180 ∧
      (d.sstFx.toInt : ℚ) / 100 = (d.sstRaw.toNat : ℚ) * (1 / 100) - 5 ∧
      (d.battFx.toNat : ℚ) / 2 = (d.battRaw.toNat : ℚ) / 2 + 5

/-- R147: no two raw values give the same fixed-point output. -/
def Obligations.RescalersAreOneToOne : Prop :=
  ∀ s s' t t' : State,
    (exec .cvtYear s = .next t → exec .cvtYear s' = .next t' → t.out.year = t'.out.year →
      s.out.yearRaw = s'.out.yearRaw) ∧
    (exec .cvtLat s = .next t → exec .cvtLat s' = .next t' → t.out.latFx = t'.out.latFx →
      s.out.latRaw = s'.out.latRaw) ∧
    (exec .cvtLon s = .next t → exec .cvtLon s' = .next t' → t.out.lonFx = t'.out.lonFx →
      s.out.lonRaw = s'.out.lonRaw) ∧
    (exec .cvtSst s = .next t → exec .cvtSst s' = .next t' → t.out.sstFx = t'.out.sstFx →
      s.out.sstRaw = s'.out.sstRaw) ∧
    (exec .cvtBatt s = .next t → exec .cvtBatt s' = .next t' → t.out.battFx = t'.out.battFx →
      s.out.battRaw = s'.out.battRaw)

/-- R146: the output ranges, which every successful response meets. -/
def Obligations.OutputRanges : Prop :=
  ∀ (s : State) (len : ReqLen) (data : Record), 14 ≤ len.toNat →
    ∃ t d, exec (.decode len data) s = .next t ∧ t.rsp = some (.ok d) ∧
      2000 ≤ d.year.toNat ∧ d.year.toNat ≤ 2063 ∧ d.month.toNat ≤ 15 ∧ d.day.toNat ≤ 31 ∧ d.secs.toNat ≤ 131071 ∧
      d.gpsFlag.toNat ≤ 3 ∧ -324000000 ≤ d.latFx.toInt ∧ d.latFx.toInt ≤ 749741823 ∧
      -648000000 ≤ d.lonFx.toInt ∧ d.lonFx.toInt ≤ 1499483647 ∧ -500 ≤ d.sstFx.toInt ∧ d.sstFx.toInt ≤ 3595 ∧
      10 ≤ d.battFx.toNat ∧ d.battFx.toNat ≤ 25

/-! ### Renderers -/

/-- ROUNDED_B64 (R148 to R152): each renderer writes the binary64 value nearest the exact rational of its
fixed-point output, a tie going to the even one, and nothing else. The binary64 format is IEEE 754's (log 11). -/
def Obligations.RoundedRenderIsNearest : Prop :=
  ∀ s : State, s.fpRender = .roundedB64 →
    (∃ w, exec .f64Lat s = .next { s with out := { s.out with latF64 := some w } } ∧
      NearestB64 ((s.out.latRaw.toNat : ℚ) / 3600000 - 90) w) ∧
    (∃ w, exec .f64Lon s = .next { s with out := { s.out with lonF64 := some w } } ∧
      NearestB64 ((s.out.lonRaw.toNat : ℚ) / 3600000 - 180) w) ∧
    (∃ w, exec .f64Sst s = .next { s with out := { s.out with sstF64 := some w } } ∧
      NearestB64 (((s.out.sstRaw.toNat : ℚ) - 500) / 100) w) ∧
    (∃ w, exec .f64Batt s = .next { s with out := { s.out with battF64 := some w } } ∧
      NearestB64 ((s.out.battRaw.toNat : ℚ) / 2 + 5) w)

/-- STEPWISE_B64 (R148 to R152): each renderer writes the value of the source formula with each operation rounded
to the nearest binary64 value in turn, the literal 0.01 being 0x3F847AE147AE147B, and nothing else. The binary64
format is IEEE 754's (log 11). -/
def Obligations.StepwiseRenderRoundsEachOperation : Prop :=
  ∀ s : State, s.fpRender = .stepwiseB64 →
    (∃ q w, exec .f64Lat s = .next { s with out := { s.out with latF64 := some w } } ∧
      NearestB64 ((s.out.latRaw.toNat : ℚ) / 3600000) q ∧ NearestB64 ((b64Value q).toRat - 90) w) ∧
    (∃ q w, exec .f64Lon s = .next { s with out := { s.out with lonF64 := some w } } ∧
      NearestB64 ((s.out.lonRaw.toNat : ℚ) / 3600000) q ∧ NearestB64 ((b64Value q).toRat - 180) w) ∧
    (∃ q w, exec .f64Sst s = .next { s with out := { s.out with sstF64 := some w } } ∧
      NearestB64 ((s.out.sstRaw.toNat : ℚ) * (5764607523034235 / 2 ^ 59)) q ∧ NearestB64 ((b64Value q).toRat - 5) w) ∧
    (∃ q w, exec .f64Batt s = .next { s with out := { s.out with battF64 := some w } } ∧
      NearestB64 ((s.out.battRaw.toNat : ℚ) / 2) q ∧ NearestB64 ((b64Value q).toRat + 5) w)

/-- R148: neither setting can produce a NaN, an infinity, a subnormal or a negative zero for any raw value
(the format: log 11). -/
def Obligations.RenderedValuesAreOrdinary : Prop :=
  ∀ (s : State) (len : ReqLen) (data : Record), 14 ≤ len.toNat →
    ∃ t d, exec (.decode len data) s = .next t ∧ t.rsp = some (.ok d) ∧
      ∀ w : B64, some w ∈ [d.latF64, d.lonF64, d.sstF64, d.battF64] → OrdinaryB64 w

/-- R152: both settings render every battery value exactly, so they agree. -/
def Obligations.BatteryRenderingsAgree : Prop :=
  ∀ s s' : State, s.fpRender = .stepwiseB64 → s'.fpRender = .roundedB64 → s.out.battRaw = s'.out.battRaw →
    ∃ w, exec .f64Batt s = .next { s with out := { s.out with battF64 := some w } } ∧
      exec .f64Batt s' = .next { s' with out := { s'.out with battF64 := some w } } ∧
      (b64Value w).toRat = (s.out.battRaw.toNat : ℚ) / 2 + 5

/-- R148: under FP_RENDER = NONE the F64_ operations do not exist, and no response carries a binary64 field. That exec
answers an operation that does not exist with the refusal f64OperationAbsent is the model's choice (log 10). -/
def Obligations.NoRenderingUnderNone : Prop :=
  ∀ s : State, s.fpRender = .none →
    (∀ i ∈ [Instr.f64Lat, .f64Lon, .f64Sst, .f64Batt], exec i s = .refused .f64OperationAbsent) ∧
    ∀ (len : ReqLen) (data : Record), 14 ≤ len.toNat →
      ∃ t d, exec (.decode len data) s = .next t ∧ t.rsp = some (.ok d) ∧
        d.latF64 = none ∧ d.lonF64 = none ∧ d.sstF64 = none ∧ d.battF64 = none

/-! ### Encoding -/

/-- R22, R23, R83: a well-formed request, sent as a buffer of bytes or as one request word, decodes to itself, and
no bit of a request word is dropped. The number of the word is the model's choice (log 1). -/
def Obligations.DecodeOfEncodeIsSame : Prop :=
  (∀ (fp : FpRender) (len : ReqLen) (data : Record), (Instr.decode len data).wellFormed fp = true →
    decodeBuffer (bufferOf len data) = .decode len data) ∧
  (∀ (i : Instr) (w : ReqWord), encode i = some w → decodeTableWord 116 w.toNat = some i) ∧
  (∀ w : ReqWord, encode (decodeWord w) = some w)

/-- Two words written out from the spec's encoding: vector S3 (record E1, req_len 0xE) and vector D2 (13 bytes,
byte lane 13 absent), the length port in bits 3:0 (log 1); and the buffer of D5. -/
def Obligations.DecodeOfWrittenWords : Prop :=
  decodeTableWord 116 0x619EA8C0744CF30018C89AC0D243E = some (.decode 14 0x619EA8C0744CF30018C89AC0D243#112) ∧
  decodeTableWord 116 0x619EA8C0744CF30018C89AC0D200D = some (.decode 13 0x619EA8C0744CF30018C89AC0D200#112) ∧
  decodeBuffer [0x61, 0x9e, 0xa8, 0xc0, 0x74, 0x4c, 0xf3, 0x00, 0x18, 0xc8, 0x9a, 0xc0, 0xd2, 0x43,
    0xff, 0xff, 0xff, 0xff, 0xff, 0xff] = .decode 15 0x619EA8C0744CF30018C89AC0D243#112

/-! ### Runs, the host's reads, instances -/

/-- R107, R27, R105: a run has one response for each request, in order, each the answer to its own request alone,
and ends in the last one (log 6). -/
def Obligations.RunAnswersEachRequest : Prop :=
  ∀ (s : State) (reqs : List Request), s.reqValid = false →
    ∃ t, observe s reqs = some (reqs.map fun r => answerOf s.fpRender r.len r.data, t) ∧
      t.reqValid = false ∧ t.fpRender = s.fpRender ∧
      t.rsp = (match reqs.getLast? with
        | none => s.rsp
        | some r => some (answerOf s.fpRender r.len r.data))

/-- R28 to R30: of a success the host reads the fields, of an error none, while the ports then show zero
on every field output, the binary64 outputs too where FP_RENDER gives the block them (log 7, log 8). -/
def Obligations.HostReadsResponse : Prop :=
  ∀ (s : State) (len : ReqLen) (data : Record), ∃ t, exec (.decode len data) s = .next t ∧ t.rspValid = true ∧
    (14 ≤ len.toNat → t.rspErr = false ∧ t.readFields = .next (recordFields s.fpRender data) ∧
      t.portFields = recordFields s.fpRender data) ∧
    (len.toNat < 14 → t.rspErr = true ∧ t.readFields = .refused .fieldReadOfErrorResponse ∧
      { t.portFields with latF64 := none, lonF64 := none, sstF64 := none, battF64 := none } = .blank ∧
      ∀ p ∈ [t.portFields.latF64, t.portFields.lonF64, t.portFields.sstF64, t.portFields.battF64],
        p = if s.fpRender = .none then none else some 0)

/-- What the ports and a read show while a later request is outstanding, on which the spec is silent: the last response
(the model's choice: log 25), with `rsp_valid` at 0 (log 7). -/
def Obligations.PortsKeepResponseWhileOutstanding : Prop :=
  ∀ (s : State) (r : Request), (s.present r).portFields = s.portFields ∧ (s.present r).readFields = s.readFields ∧
    (s.present r).rspErr = s.rspErr ∧ (s.present r).rspValid = false

/-- R61, R180: a step of one instance always goes on, leaves every other instance as it is, and answers as that
instance alone would; the same holds of a move of its host and of its own reset. -/
def Obligations.InstancesAreIsolated : Prop :=
  ∀ (sys : System) (k : Nat) (s : State) (m : HostMove), sys.block k = some s →
    (∃ sys' t, sys.stepAt k = some sys' ∧ step s = .next t ∧ sys'.block k = some t ∧
      ∀ j, j ≠ k → sys'.block j = sys.block j) ∧
    ((sys.driveAt k m).block k = some (s.drive m) ∧ ∀ j, j ≠ k → (sys.driveAt k m).block j = sys.block j) ∧
    (sys.resetAt k).block k = some s.afterReset ∧ ∀ j, j ≠ k → (sys.resetAt k).block j = sys.block j

/-- R180: each of the N >= 1 instances starts from its own reset. That they are all of one build, with one FP_RENDER, is
the model's choice (log 19), and so are the values of the operand words and of the request port after reset (log 4,
log 5). -/
def Obligations.InstancesStartFromReset : Prop :=
  ∀ (fp : FpRender) (n k : Nat), (System.start fp n).block k =
    if k ≤ n then some { State.reset with fpRender := fp } else none

/-- R180: the result of a request does not depend on which instance serves it: every idle instance of a system gives the
answer that the request and the system's FP_RENDER fix. That all instances have the one FP_RENDER is the model's choice
(log 19). -/
def Obligations.AnyInstanceServesAlike : Prop :=
  ∀ (sys : System) (k : Nat) (s : State) (r : Request), sys.block k = some s → s.reqValid = false →
    ∃ sys' t, (sys.driveAt k (.present r)).stepAt k = some sys' ∧ sys'.block k = some t ∧
      t.rsp = some (answerOf sys.fpRender r.len r.data)
end

