-- ==== Sys2Proof/Laws/Binary64.lean ====
section
/-! SUPPORT. What binary64 rounding does (R148): `rne64_nearest` says it once, from the integer rounding and the
place of the last bit up. -/

namespace Sys2Proof.Machine

/-! ### Rounding to an integer -/

/-- The rounded quotient is off by at most one half, and it is even where it is off by exactly one half. -/
theorem roundHalfEven_near (a b : Nat) (hb : 0 < b) :
    2 * a ≤ 2 * roundHalfEven a b * b + b ∧ 2 * roundHalfEven a b * b ≤ 2 * a + b ∧
    ((2 * a = 2 * roundHalfEven a b * b + b ∨ 2 * roundHalfEven a b * b = 2 * a + b) → roundHalfEven a b % 2 = 0) := by
  have h := Nat.div_add_mod a b
  have hr := Nat.mod_lt a hb
  unfold roundHalfEven
  set q := a / b
  set r := a % b
  have e : ∀ k : Nat, 2 * (q + k) * b = 2 * (b * q) + 2 * k * b := fun k => by ring
  have e0 := e 0
  have e1 := e 1
  simp only [Nat.add_zero, Nat.mul_zero, Nat.zero_mul, Nat.mul_one] at e0 e1
  dsimp only
  split_ifs with h1 h2 h3
  · rw [e0]; omega
  · rw [e1]; omega
  · rw [e0]; omega
  · rw [e1]; omega

/-- No integer is nearer to `a / b` than the rounded quotient, and of two equally near it is the even one. -/
theorem roundHalfEven_nearest (a b : Nat) (hb : 0 < b) (n : ℤ) :
    |(roundHalfEven a b : ℚ) - a / b| ≤ |(n : ℚ) - a / b| ∧
    (|(roundHalfEven a b : ℚ) - a / b| = |(n : ℚ) - a / b| → n ≠ roundHalfEven a b → roundHalfEven a b % 2 = 0) := by
  obtain ⟨h1, h2, h3⟩ := roundHalfEven_near a b hb
  set q := roundHalfEven a b
  have hb' : (0 : ℚ) < b := by exact_mod_cast hb
  have g1 : (a : ℚ) / b ≤ q + 1 / 2 := by
    rw [div_le_iff₀ hb']
    have : (2 * a : ℚ) ≤ 2 * q * b + b := by exact_mod_cast h1
    linarith
  have g2 : (q : ℚ) - 1 / 2 ≤ a / b := by
    rw [le_div_iff₀ hb']
    have : (2 * q * b : ℚ) ≤ 2 * a + b := by exact_mod_cast h2
    linarith
  have near : |(q : ℚ) - a / b| ≤ 1 / 2 := abs_le.2 ⟨by linarith, by linarith⟩
  by_cases hn : n = q
  · rw [hn]
    exact ⟨by simp, fun _ h => absurd rfl h⟩
  · have far : 1 ≤ |(n : ℚ) - q| := by
      have : (1 : ℤ) ≤ |n - q| := Int.one_le_abs (sub_ne_zero.2 hn)
      exact_mod_cast this
    have tri : |(n : ℚ) - q| ≤ |(n : ℚ) - a / b| + |(q : ℚ) - a / b| := by
      rw [abs_sub_comm (q : ℚ)]
      exact abs_sub_le _ _ _
    refine ⟨by linarith, fun heq _ => h3 ?_⟩
    have half : |(q : ℚ) - a / b| = 1 / 2 := by linarith
    rcases abs_eq (by norm_num : (0 : ℚ) ≤ 1 / 2) |>.1 half with h | h
    · right
      have : (2 * q * b : ℚ) = 2 * a + b := by
        have : (q : ℚ) = a / b + 1 / 2 := by linarith
        rw [this]; field_simp
      exact_mod_cast this
    · left
      have : (2 * a : ℚ) = 2 * q * b + b := by
        have : (q : ℚ) = a / b - 1 / 2 := by linarith
        rw [this]; field_simp; ring
      exact_mod_cast this

/-! ### The place of the last bit -/

theorem scaleBy_spec (a b : Nat) (hb : 0 < b) (e : Int) :
    0 < (scaleBy a b e).2 ∧ ((scaleBy a b e).1 : ℚ) / (scaleBy a b e).2 = (a : ℚ) / b / (2 : ℚ) ^ e := by
  cases e with
  | ofNat k =>
    simp only [scaleBy]
    refine ⟨by positivity, ?_⟩
    push_cast
    simp [div_div]
  | negSucc k =>
    simp only [scaleBy]
    refine ⟨hb, ?_⟩
    rw [zpow_negSucc]
    push_cast
    field_simp

theorem log2_bounds (a : Nat) (ha : 0 < a) :
    (2 : ℚ) ^ ((a.log2 : ℤ)) ≤ a ∧ (a : ℚ) < (2 : ℚ) ^ ((a.log2 : ℤ) + 1) := by
  have h1 := Nat.log2_self_le (n := a) (by omega)
  have h2 := Nat.lt_log2_self (n := a)
  refine ⟨?_, ?_⟩
  · rw [zpow_natCast]; exact_mod_cast h1
  · rw [show ((a.log2 : ℤ) + 1) = ((a.log2 + 1 : ℕ) : ℤ) by push_cast; rfl, zpow_natCast]
    exact_mod_cast h2

/-- At the last place a positive quotient has at most 53 integer bits, and exactly 53 above the subnormals. -/
theorem lastPlace_spec (a b : Nat) (ha : 0 < a) (hb : 0 < b) :
    -1074 ≤ lastPlace a b ∧ (a : ℚ) / b / (2 : ℚ) ^ lastPlace a b < 2 ^ 53 ∧
    (-1074 < lastPlace a b → 2 ^ 52 ≤ (a : ℚ) / b / (2 : ℚ) ^ lastPlace a b) := by
  obtain ⟨a1, a2⟩ := log2_bounds a ha
  obtain ⟨b1, b2⟩ := log2_bounds b hb
  have hb' : (0 : ℚ) < b := by exact_mod_cast hb
  set la : ℤ := (a.log2 : ℤ)
  set lb : ℤ := (b.log2 : ℤ)
  set y : ℚ := (a : ℚ) / b with hy
  have two : (2 : ℚ) ≠ 0 := by norm_num
  have up : y < 2 ^ (la - lb + 1) := by
    rw [hy, div_lt_iff₀ hb']
    calc (a : ℚ) < 2 ^ (la + 1) := a2
      _ = 2 ^ (la - lb + 1) * 2 ^ lb := by rw [← zpow_add₀ two]; congr 1; ring
      _ ≤ 2 ^ (la - lb + 1) * b := by gcongr
  have low : 2 ^ (la - lb - 1) < y := by
    rw [hy, lt_div_iff₀ hb']
    calc (2 : ℚ) ^ (la - lb - 1) * b < 2 ^ (la - lb - 1) * 2 ^ (lb + 1) := by gcongr
      _ = 2 ^ la := by rw [← zpow_add₀ two]; congr 1; ring
      _ ≤ a := a1
  unfold lastPlace
  dsimp only
  obtain ⟨s1, s2⟩ := scaleBy_spec a b hb (la - lb - 52)
  generalize scaleBy a b (la - lb - 52) = p at s1 s2 ⊢
  have s1' : (0 : ℚ) < p.2 := Nat.cast_pos.2 s1
  have key : ∀ e : ℤ, y / 2 ^ e < 2 ^ 53 → -1074 ≤ max e (-1074) ∧ y / 2 ^ (max e (-1074)) < 2 ^ 53 := by
    intro e he
    refine ⟨le_max_right _ _, lt_of_le_of_lt ?_ he⟩
    have : (2 : ℚ) ^ e ≤ 2 ^ (max e (-1074)) := zpow_le_zpow_right₀ (by norm_num) (le_max_left _ _)
    have ypos : 0 ≤ y := by positivity
    gcongr
  have key2 : ∀ e : ℤ, 2 ^ 52 ≤ y / 2 ^ e → -1074 < max e (-1074) → 2 ^ 52 ≤ y / 2 ^ (max e (-1074)) := by
    intro e he hm
    rcases max_choice e (-1074) with h | h
    · rw [h]; exact he
    · omega
  have pos : ∀ e : ℤ, (0 : ℚ) < 2 ^ e := fun e => zpow_pos (by norm_num) e
  split
  · next h =>
    have small : y / 2 ^ (la - lb - 52) < 2 ^ 52 := by
      rw [← s2, div_lt_iff₀ s1']
      have : (p.1 : ℚ) < p.2 * 2 ^ 52 := by exact_mod_cast h
      linarith
    have e1 : y / 2 ^ (la - lb - 52 - 1) < 2 ^ 53 := by
      rw [div_lt_iff₀ (pos _)] at small ⊢
      have : (2 : ℚ) ^ (la - lb - 52) = 2 ^ (la - lb - 52 - 1) * 2 := by
        rw [← zpow_add_one₀ two]; congr 1; ring
      rw [this] at small
      linarith
    have e2 : 2 ^ 52 ≤ y / 2 ^ (la - lb - 52 - 1) := by
      rw [le_div_iff₀ (pos _)]
      have : (2 : ℚ) ^ 52 * 2 ^ (la - lb - 52 - 1) = 2 ^ (la - lb - 1) := by
        rw [← zpow_natCast, ← zpow_add₀ two]; congr 1; push_cast; ring
      linarith
    exact ⟨(key _ e1).1, (key _ e1).2, key2 _ e2⟩
  · next h =>
    have e2 : 2 ^ 52 ≤ y / 2 ^ (la - lb - 52) := by
      rw [← s2, le_div_iff₀ s1']
      have : (p.2 : ℚ) * 2 ^ 52 ≤ p.1 := by exact_mod_cast not_lt.1 h
      linarith
    have e1 : y / 2 ^ (la - lb - 52) < 2 ^ 53 := by
      rw [div_lt_iff₀ (pos _)]
      have : (2 : ℚ) ^ 53 * 2 ^ (la - lb - 52) = 2 ^ (la - lb + 1) := by
        rw [← zpow_natCast, ← zpow_add₀ two]; congr 1; push_cast; ring
      linarith
    exact ⟨(key _ e1).1, (key _ e1).2, key2 _ e2⟩

/-! ### The value of a magnitude -/

/-- The exact value of a finite encoding without its sign. -/
def magnitudeValue (k : Nat) : ℚ :=
  ((if k / 2 ^ 52 = 0 then k else 2 ^ 52 + k % 2 ^ 52 : ℕ) : ℚ) * (2 : ℚ) ^ ((max (k / 2 ^ 52) 1 : ℕ) - 1075 : ℤ)

theorem magnitudeValue_nonneg (k : Nat) : 0 ≤ magnitudeValue k := by
  unfold magnitudeValue; positivity

theorem magnitudeValue_lt (k : Nat) : magnitudeValue k < 2 ^ 53 * (2 : ℚ) ^ ((max (k / 2 ^ 52) 1 : ℕ) - 1075 : ℤ) := by
  unfold magnitudeValue
  have : (if k / 2 ^ 52 = 0 then k else 2 ^ 52 + k % 2 ^ 52 : ℕ) < 2 ^ 53 := by
    split <;> omega
  have h : ((if k / 2 ^ 52 = 0 then k else 2 ^ 52 + k % 2 ^ 52 : ℕ) : ℚ) < 2 ^ 53 := by exact_mod_cast this
  have : (0 : ℚ) < 2 ^ ((max (k / 2 ^ 52) 1 : ℕ) - 1075 : ℤ) := zpow_pos (by norm_num) _
  gcongr

/-- What an exponent part `c` and a significand `q` that may have carried are worth. -/
theorem magnitudeValue_mk (c q : Nat) (hc : c = 0 ∨ 2 ^ 52 ≤ q) (hq : q ≤ 2 ^ 53) :
    magnitudeValue (c * 2 ^ 52 + q) = q * (2 : ℚ) ^ ((c : ℤ) - 1074) := by
  have two : (2 : ℚ) ≠ 0 := by norm_num
  unfold magnitudeValue
  by_cases h1 : q < 2 ^ 52
  · have : c = 0 := by omega
    subst this
    have hd : (0 * 2 ^ 52 + q) / 2 ^ 52 = 0 := by omega
    rw [if_pos hd, hd]
    norm_num
  · by_cases h2 : q = 2 ^ 53
    · subst h2
      have hd : (c * 2 ^ 52 + 2 ^ 53) / 2 ^ 52 = c + 2 := by omega
      have hm : (c * 2 ^ 52 + 2 ^ 53) % 2 ^ 52 = 0 := by omega
      rw [hd, hm, if_neg (by omega), show max (c + 2) 1 = c + 2 by omega]
      have : ((c + 2 : ℕ) - 1075 : ℤ) = ((c : ℤ) - 1074) + 1 := by push_cast; ring
      rw [this, zpow_add_one₀ two]
      push_cast; ring
    · have hd : (c * 2 ^ 52 + q) / 2 ^ 52 = c + 1 := by omega
      have hm : (c * 2 ^ 52 + q) % 2 ^ 52 = q - 2 ^ 52 := by omega
      rw [hd, hm, if_neg (by omega), show max (c + 1) 1 = c + 1 by omega]
      have : ((c + 1 : ℕ) - 1075 : ℤ) = (c : ℤ) - 1074 := by push_cast; ring
      rw [this, show 2 ^ 52 + (q - 2 ^ 52) = q by omega]

/-- Seen from the place `c`, a magnitude is a whole number of units or lies below the binade of `c`. -/
theorem magnitudeValue_grid (k c : Nat) :
    (∃ n : ℕ, magnitudeValue k = n * (2 : ℚ) ^ ((c : ℤ) - 1074)) ∨
    (0 < c ∧ magnitudeValue k < 2 ^ 52 * (2 : ℚ) ^ ((c : ℤ) - 1074)) := by
  have two : (2 : ℚ) ≠ 0 := by norm_num
  by_cases h : c + 1 ≤ max (k / 2 ^ 52) 1
  · left
    refine ⟨(if k / 2 ^ 52 = 0 then k else 2 ^ 52 + k % 2 ^ 52 : ℕ) * 2 ^ (max (k / 2 ^ 52) 1 - (c + 1)), ?_⟩
    unfold magnitudeValue
    have : ((max (k / 2 ^ 52) 1 : ℕ) - 1075 : ℤ) = ((max (k / 2 ^ 52) 1 - (c + 1) : ℕ) : ℤ) + ((c : ℤ) - 1074) := by
      omega
    rw [this, zpow_add₀ two, zpow_natCast]
    push_cast
    ring
  · right
    refine ⟨by omega, lt_of_lt_of_le (magnitudeValue_lt k) ?_⟩
    have : (2 : ℚ) ^ ((max (k / 2 ^ 52) 1 : ℕ) - 1075 : ℤ) ≤ 2 ^ ((c : ℤ) - 1075) :=
      zpow_le_zpow_right₀ (by norm_num) (by omega)
    have e : (2 : ℚ) ^ ((c : ℤ) - 1074) = 2 ^ ((c : ℤ) - 1075) * 2 := by
      rw [← zpow_add_one₀ two]; congr 1; ring
    rw [e]
    linarith

theorem magnitudeValue_strictMono : StrictMono magnitudeValue := by
  intro k k' h
  have two : (2 : ℚ) ≠ 0 := by norm_num
  have pos : ∀ e : ℤ, (0 : ℚ) < 2 ^ e := fun e => zpow_pos (by norm_num) e
  by_cases he : k / 2 ^ 52 = k' / 2 ^ 52
  · unfold magnitudeValue
    rw [he]
    have : (if k' / 2 ^ 52 = 0 then k else 2 ^ 52 + k % 2 ^ 52 : ℕ) < (if k' / 2 ^ 52 = 0 then k' else 2 ^ 52 + k' % 2 ^ 52 : ℕ) := by
      split <;> omega
    have h : ((if k' / 2 ^ 52 = 0 then k else 2 ^ 52 + k % 2 ^ 52 : ℕ) : ℚ) < (if k' / 2 ^ 52 = 0 then k' else 2 ^ 52 + k' % 2 ^ 52 : ℕ) := by
      exact_mod_cast this
    have := pos ((max (k' / 2 ^ 52) 1 : ℕ) - 1075 : ℤ)
    gcongr
  · have hlt : k / 2 ^ 52 < k' / 2 ^ 52 := by omega
    have lower : (2 : ℚ) ^ 52 * 2 ^ ((k' / 2 ^ 52 : ℕ) - 1075 : ℤ) ≤ magnitudeValue k' := by
      unfold magnitudeValue
      rw [if_neg (by omega), show max (k' / 2 ^ 52) 1 = k' / 2 ^ 52 by omega]
      have := pos ((k' / 2 ^ 52 : ℕ) - 1075 : ℤ)
      have h : (2 : ℚ) ^ 52 ≤ ((2 ^ 52 + k' % 2 ^ 52 : ℕ) : ℚ) := by
        exact_mod_cast Nat.le_add_right _ _
      gcongr
    by_cases h0 : k / 2 ^ 52 = 0
    · refine lt_of_lt_of_le ?_ lower
      unfold magnitudeValue
      rw [if_pos h0, h0]
      have h1 : (k : ℚ) < 2 ^ 52 := by
        have : k < 2 ^ 52 := by omega
        exact_mod_cast this
      have h2 : (2 : ℚ) ^ ((max 0 1 : ℕ) - 1075 : ℤ) ≤ 2 ^ ((k' / 2 ^ 52 : ℕ) - 1075 : ℤ) :=
        zpow_le_zpow_right₀ (by norm_num) (by omega)
      have h3 := pos ((max 0 1 : ℕ) - 1075 : ℤ)
      calc (k : ℚ) * 2 ^ ((max 0 1 : ℕ) - 1075 : ℤ) < 2 ^ 52 * 2 ^ ((max 0 1 : ℕ) - 1075 : ℤ) := by gcongr
        _ ≤ 2 ^ 52 * 2 ^ ((k' / 2 ^ 52 : ℕ) - 1075 : ℤ) := by gcongr
    · refine lt_of_lt_of_le (magnitudeValue_lt k) (le_trans ?_ lower)
      have e : (2 : ℚ) ^ 53 * 2 ^ ((max (k / 2 ^ 52) 1 : ℕ) - 1075 : ℤ)
          = 2 ^ 52 * 2 ^ (((max (k / 2 ^ 52) 1 : ℕ) - 1075 : ℤ) + 1) := by
        rw [zpow_add_one₀ two]; ring
      rw [e]
      have : (2 : ℚ) ^ (((max (k / 2 ^ 52) 1 : ℕ) - 1075 : ℤ) + 1) ≤ 2 ^ ((k' / 2 ^ 52 : ℕ) - 1075 : ℤ) :=
        zpow_le_zpow_right₀ (by norm_num) (by omega)
      gcongr

/-! ### Rounding a quotient -/

/-- A rounded quotient below `2 ^ 1023` is finite, its last bit is that of its significand, and no magnitude is
nearer; of two equally near it is the even one. -/
theorem roundMagnitude_nearest (a b : Nat) (ha : 0 < a) (hb : 0 < b) (hy : (a : ℚ) / b < 2 ^ 1023) :
    roundMagnitude a b < 2047 * 2 ^ 52 ∧
    ∀ k, (|magnitudeValue (roundMagnitude a b) - (a : ℚ) / b| ≤ |magnitudeValue k - (a : ℚ) / b| ∧
      (|magnitudeValue (roundMagnitude a b) - (a : ℚ) / b| = |magnitudeValue k - (a : ℚ) / b| →
        k ≠ roundMagnitude a b → roundMagnitude a b % 2 = 0)) := by
  have two : (2 : ℚ) ≠ 0 := by norm_num
  have pos : ∀ e : ℤ, (0 : ℚ) < 2 ^ e := fun e => zpow_pos (by norm_num) e
  obtain ⟨l1, l2, l3⟩ := lastPlace_spec a b ha hb
  obtain ⟨s1, s2⟩ := scaleBy_spec a b hb (lastPlace a b)
  set e := lastPlace a b with he
  obtain ⟨c, hc⟩ : ∃ c : ℕ, e = (c : ℤ) - 1074 := ⟨(e + 1074).toNat, by omega⟩
  set a' := (scaleBy a b e).1
  set b' := (scaleBy a b e).2
  set q := roundHalfEven a' b' with hq
  have near := roundHalfEven_nearest a' b' s1
  rw [s2] at near
  have near' : ∀ (n : ℕ) (x : ℚ), (n : ℚ) = x → |(q : ℚ) - (a : ℚ) / b / 2 ^ e| ≤ |x - (a : ℚ) / b / 2 ^ e| := by
    intro n x hx
    rw [← hx]
    exact_mod_cast (near n).1
  set y : ℚ := (a : ℚ) / b
  set z : ℚ := y / 2 ^ e
  have yz : y = z * 2 ^ e := by simp only [z]; field_simp
  have q53 : q ≤ 2 ^ 53 := by
    by_contra h
    have : |(q : ℚ) - z| ≤ |(2 : ℚ) ^ 53 - z| := near' (2 ^ 53) _ (by norm_num)
    have hq' : (2 : ℚ) ^ 53 + 1 ≤ q := by exact_mod_cast (by omega : 2 ^ 53 + 1 ≤ q)
    rw [abs_of_pos (by linarith), abs_of_pos (by linarith)] at this
    linarith
  have q52 : c = 0 ∨ 2 ^ 52 ≤ q := by
    by_cases h0 : c = 0
    · exact .inl h0
    · right
      by_contra h
      have l3' := l3 (by omega)
      have : |(q : ℚ) - z| ≤ |(2 : ℚ) ^ 52 - z| := near' (2 ^ 52) _ (by norm_num)
      have hq' : (q : ℚ) + 1 ≤ 2 ^ 52 := by exact_mod_cast (by omega : q + 1 ≤ 2 ^ 52)
      rw [abs_of_neg (by linarith), abs_of_nonpos (by linarith)] at this
      linarith
  have clt : c < 2045 := by
    by_contra h
    have l3' := l3 (by omega)
    rw [le_div_iff₀ (pos _)] at l3'
    have : (2 : ℚ) ^ (971 : ℤ) ≤ 2 ^ e := zpow_le_zpow_right₀ (by norm_num) (by omega)
    have h1023 : (2 : ℚ) ^ 52 * 2 ^ (971 : ℤ) = 2 ^ 1023 := by
      rw [show (971 : ℤ) = ((971 : ℕ) : ℤ) from rfl, zpow_natCast, ← pow_add]
    have : (2 : ℚ) ^ 52 * 2 ^ (971 : ℤ) ≤ 2 ^ 52 * 2 ^ e := by gcongr
    rw [h1023] at this
    exact absurd hy (not_lt.2 (this.trans l3'))
  have m_eq : roundMagnitude a b = c * 2 ^ 52 + q := by
    unfold roundMagnitude
    dsimp only
    rw [← he, show (e + 1074).toNat = c by omega]
    change min (c * 2 ^ 52 + q) (2047 * 2 ^ 52) = _
    exact min_eq_left (by omega)
  have val : magnitudeValue (roundMagnitude a b) = q * 2 ^ e := by
    rw [m_eq, magnitudeValue_mk c q q52 q53, hc]
  have dist : ∀ x : ℚ, |x * 2 ^ e - y| = |x - z| * 2 ^ e := by
    intro x
    rw [yz, ← sub_mul, abs_mul, abs_of_pos (pos e)]
  refine ⟨by omega, fun k => ?_⟩
  rw [val, dist]
  rcases magnitudeValue_grid k c with ⟨n, hn⟩ | ⟨hc0, hn⟩
  · rw [← hc] at hn
    rw [hn, dist]
    obtain ⟨n1, n2⟩ := near n
    refine ⟨mul_le_mul_of_nonneg_right (by exact_mod_cast n1) (pos e).le, fun heq hne => ?_⟩
    have heq' := mul_right_cancel₀ (pos e).ne' heq
    have : (n : ℤ) ≠ q := by
      intro h
      apply hne
      apply magnitudeValue_strictMono.injective
      rw [val, hn]
      have : n = q := by exact_mod_cast h
      rw [this]
    have := n2 (by exact_mod_cast heq') this
    rw [m_eq]
    omega
  · rw [← hc] at hn
    have l3' := l3 (by omega)
    have hz : (2 : ℚ) ^ 52 * 2 ^ e ≤ y := by rw [yz]; have := pos e; gcongr
    have lt : |(q : ℚ) - z| * 2 ^ e < |magnitudeValue k - y| := by
      have h52 : |(q : ℚ) - z| ≤ |(2 : ℚ) ^ 52 - z| := near' (2 ^ 52) _ (by norm_num)
      rw [abs_of_nonpos (by linarith : (2 : ℚ) ^ 52 - z ≤ 0)] at h52
      rw [abs_of_neg (by linarith : magnitudeValue k - y < 0)]
      have : |(q : ℚ) - z| * 2 ^ e ≤ -(2 ^ 52 - z) * 2 ^ e := by have := pos e; gcongr
      have : -(2 ^ 52 - z) * 2 ^ e = y - 2 ^ 52 * 2 ^ e := by rw [yz]; ring
      linarith
    exact ⟨lt.le, fun heq => absurd heq lt.ne⟩

/-! ### Encodings -/

/-- The magnitude part of an encoding. -/
def magnitudeOf (w : B64) : Nat := w.toNat % 2 ^ 63

theorem b64Exponent_eq (w : B64) : b64Exponent w = magnitudeOf w / 2 ^ 52 := by
  simp only [b64Exponent, magnitudeOf, BitVec.extractLsb'_toNat, Nat.shiftRight_eq_div_pow]
  omega

theorem b64Fraction_eq (w : B64) : b64Fraction w = magnitudeOf w % 2 ^ 52 := by
  simp only [b64Fraction, magnitudeOf, BitVec.extractLsb'_toNat, Nat.shiftRight_eq_div_pow]
  omega

/-- The value of an encoding is its magnitude's, with its sign. -/
theorem b64Value_toRat (w : B64) :
    (b64Value w).toRat = (if w.msb then -1 else 1) * magnitudeValue (magnitudeOf w) := by
  have two : (2 : ℚ) ≠ 0 := by norm_num
  simp only [b64Value, b64Exponent_eq, b64Fraction_eq, Frac.toRat, magnitudeValue]
  set k := magnitudeOf w
  have sg : (if k / 2 ^ 52 = 0 then k % 2 ^ 52 else 2 ^ 52 + k % 2 ^ 52) = (if k / 2 ^ 52 = 0 then k else 2 ^ 52 + k % 2 ^ 52) := by
    split <;> omega
  rw [sg]
  set m : ℕ := if k / 2 ^ 52 = 0 then k else 2 ^ 52 + k % 2 ^ 52
  set x : ℕ := max (k / 2 ^ 52) 1
  have body : ∀ t : ℤ, ((if 1075 ≤ x then (⟨t * 2 ^ (x - 1075), 1⟩ : Frac) else ⟨t, 2 ^ (1075 - x)⟩).num : ℚ) /
      ((if 1075 ≤ x then (⟨t * 2 ^ (x - 1075), 1⟩ : Frac) else ⟨t, 2 ^ (1075 - x)⟩).den : ℚ) = t * (2 : ℚ) ^ ((x : ℤ) - 1075) := by
    intro t
    split
    · next h =>
      rw [show (x : ℤ) - 1075 = ((x - 1075 : ℕ) : ℤ) by omega, zpow_natCast]
      push_cast; ring
    · next h =>
      rw [show (x : ℤ) - 1075 = -((1075 - x : ℕ) : ℤ) by omega, zpow_neg, zpow_natCast]
      push_cast; rw [div_eq_mul_inv]
  rw [body]
  split <;> push_cast <;> ring

theorem magnitudeOf_pos (m : Nat) (hm : m < 2 ^ 63) :
    magnitudeOf (BitVec.ofNat 64 m) = m ∧ (BitVec.ofNat 64 m).msb = false ∧
    (BitVec.ofNat 64 m).getLsbD 0 = decide (m % 2 = 1) := by
  refine ⟨?_, ?_, ?_⟩
  · simp [magnitudeOf]; omega
  · rw [BitVec.msb_eq_false_iff_two_mul_lt]; simp; omega
  · simp [BitVec.getLsbD, Nat.testBit_zero]

theorem magnitudeOf_neg (m : Nat) (hm : m < 2 ^ 63) :
    magnitudeOf (BitVec.ofNat 64 (2 ^ 63 + m)) = m ∧ (BitVec.ofNat 64 (2 ^ 63 + m)).msb = true ∧
    (BitVec.ofNat 64 (2 ^ 63 + m)).getLsbD 0 = decide (m % 2 = 1) := by
  refine ⟨?_, ?_, ?_⟩
  · simp [magnitudeOf]; omega
  · rw [BitVec.msb_eq_true_iff_two_mul_ge]; simp; omega
  · simp [BitVec.getLsbD, Nat.testBit_zero]; omega

theorem b64_ext (v w : B64) (hs : v.msb = w.msb) (hm : magnitudeOf v = magnitudeOf w) : v = w := by
  apply BitVec.eq_of_toNat_eq
  have hv := v.isLt
  have hw := w.isLt
  simp only [magnitudeOf] at hm
  cases h : w.msb
  · rw [h] at hs
    rw [BitVec.msb_eq_false_iff_two_mul_lt] at hs h
    omega
  · rw [h] at hs
    rw [BitVec.msb_eq_true_iff_two_mul_ge] at hs h
    omega

/-- `rne64` gives a binary64 value nearest its argument, the even one of two that are equally near. -/
theorem rne64_nearest (x : Frac) (hd : 0 < x.den) (hr : |x.toRat| < 2 ^ 1023) : NearestB64 x.toRat (rne64 x) := by
  have hd' : (0 : ℚ) < x.den := by exact_mod_cast hd
  have zero : magnitudeValue 0 = 0 := by simp [magnitudeValue]
  by_cases h0 : x.num = 0
  · have hx : x.toRat = 0 := by simp [Frac.toRat, h0]
    have hw : rne64 x = 0 := by simp [rne64, h0]
    rw [hx, hw]
    have hv : (b64Value 0).toRat = 0 := by rw [b64Value_toRat]; simp [magnitudeOf, zero]
    refine ⟨by decide, fun v _ => ⟨by rw [hv]; simp, fun _ _ => by decide⟩⟩
  · set a := x.num.natAbs with ha
    have apos : 0 < a := by omega
    have hy : |x.toRat| = (a : ℚ) / x.den := by
      rw [Frac.toRat, abs_div, abs_of_pos hd', ha, Nat.cast_natAbs, Int.cast_abs]
    rw [hy] at hr
    obtain ⟨fin, near⟩ := roundMagnitude_nearest a x.den apos hd hr
    have ypos : 0 < (a : ℚ) / x.den := by have : (0 : ℚ) < a := by exact_mod_cast apos
                                          positivity
    set m := roundMagnitude a x.den
    have m63 : m < 2 ^ 63 := by omega
    -- in both signs the encoding has magnitude m and the argument's sign
    obtain ⟨w, hw, sgn, mag, lsb⟩ : ∃ w, rne64 x = w ∧ w.msb = decide (x.num < 0) ∧ magnitudeOf w = m ∧
        w.getLsbD 0 = decide (m % 2 = 1) := by
      refine ⟨_, rfl, ?_⟩
      unfold rne64
      rw [if_neg h0]
      split
      · next h =>
        obtain ⟨p1, p2, p3⟩ := magnitudeOf_neg m m63
        exact ⟨by rw [p2]; simp [h], p1, p3⟩
      · next h =>
        obtain ⟨p1, p2, p3⟩ := magnitudeOf_pos m m63
        exact ⟨by rw [p2]; simpa using h, p1, p3⟩
    rw [hw]
    have xs : x.toRat = (if x.num < 0 then -1 else 1) * ((a : ℚ) / x.den) := by
      split
      · next h =>
        rw [← hy, abs_of_neg]; · ring
        exact div_neg_of_neg_of_pos (by exact_mod_cast h) hd'
      · next h =>
        rw [← hy, abs_of_nonneg]; · ring
        exact div_nonneg (by exact_mod_cast not_lt.1 h) hd'.le
    have same : ∀ v : B64, v.msb = w.msb →
        |(b64Value v).toRat - x.toRat| = |magnitudeValue (magnitudeOf v) - (a : ℚ) / x.den| := by
      intro v hv
      rw [b64Value_toRat, xs, hv, sgn]
      by_cases h : x.num < 0
      · simp only [h, decide_true, if_true]
        rw [← mul_sub, abs_mul]; simp
      · simp only [h, decide_false, if_false, Bool.false_eq_true]
        rw [← mul_sub, abs_mul]; simp
    have other : ∀ v : B64, v.msb ≠ w.msb →
        |(b64Value v).toRat - x.toRat| = magnitudeValue (magnitudeOf v) + (a : ℚ) / x.den := by
      intro v hv
      have nn := magnitudeValue_nonneg (magnitudeOf v)
      rw [sgn] at hv
      rw [b64Value_toRat, xs]
      by_cases h : x.num < 0
      · have : v.msb = false := by simpa [h] using hv
        simp only [h, this, if_true, Bool.false_eq_true, if_false]
        rw [abs_of_pos (by linarith)]; ring
      · have : v.msb = true := by simpa [h] using hv
        simp only [h, this, if_true, if_false]
        rw [abs_of_neg (by linarith)]; ring
    refine ⟨?_, fun v _ => ?_⟩
    · simp only [b64Finite, b64Exponent_eq, mag, bne_iff_ne, ne_eq]
      omega
    · rw [same w rfl, mag]
      by_cases hv : v.msb = w.msb
      · rw [same v hv]
        refine ⟨(near _).1, fun heq hne => ?_⟩
        rw [lsb]
        have := (near _).2 heq (fun h => hne (b64_ext v w hv (by rw [h, mag])))
        simp [this]
      · rw [other v hv]
        have nn := magnitudeValue_nonneg (magnitudeOf v)
        have h0' := (near 0).1
        rw [zero, zero_sub, abs_neg, abs_of_pos ypos] at h0'
        refine ⟨by linarith, fun heq _ => ?_⟩
        rw [lsb]
        by_cases hm : m = 0
        · simp [hm]
        · have := (near 0).2 (by rw [zero, zero_sub, abs_neg, abs_of_pos ypos]; linarith) (Ne.symm hm)
          simp [this]


/-- Rounding is exact on a rational that some finite encoding has. -/
theorem rne64_exact (x : Frac) (hd : 0 < x.den) (hr : |x.toRat| < 2 ^ 1023) (v : B64) (hv : b64Finite v = true)
    (h : (b64Value v).toRat = x.toRat) : (b64Value (rne64 x)).toRat = x.toRat := by
  have := ((rne64_nearest x hd hr).2 v hv).1
  rw [h, sub_self, abs_zero] at this
  exact sub_eq_zero.1 (abs_eq_zero.1 (le_antisymm this (abs_nonneg _)))

/-- An integer below `2 ^ 53` converts exactly (R148). -/
theorem b64OfNat_exact (n : Nat) (hn : n < 2 ^ 53) : (b64Value (b64OfNat n)).toRat = n := by
  have two : (2 : ℚ) ≠ 0 := by norm_num
  have hx : (Frac.ofInt n).toRat = n := by simp [Frac.ofInt, Frac.toRat]
  have hr : |(Frac.ofInt n).toRat| < 2 ^ 1023 := by
    rw [hx, abs_of_nonneg (by positivity)]
    calc (n : ℚ) < 2 ^ 53 := by exact_mod_cast hn
      _ ≤ 2 ^ 1023 := pow_le_pow_right₀ (by norm_num) (by norm_num)
  rw [b64OfNat]
  by_cases h0 : n = 0
  · subst h0
    have : (b64Value 0).toRat = 0 := by rw [b64Value_toRat]; simp [magnitudeOf, magnitudeValue]
    rw [rne64_exact (.ofInt (0 : ℕ)) (by decide) hr 0 (by decide) (by rw [this, hx]; simp), hx]
  · have l1 := Nat.log2_self_le (n := n) h0
    have l2 := Nat.lt_log2_self (n := n)
    have l3 : n.log2 < 53 := (Nat.log2_lt h0).2 hn
    set L := n.log2
    have q1 : 2 ^ 52 ≤ n * 2 ^ (52 - L) := by
      calc 2 ^ 52 = 2 ^ L * 2 ^ (52 - L) := by rw [← pow_add]; congr 1; omega
        _ ≤ n * 2 ^ (52 - L) := Nat.mul_le_mul_right _ l1
    have q2 : n * 2 ^ (52 - L) < 2 ^ 53 := by
      calc n * 2 ^ (52 - L) < 2 ^ (L + 1) * 2 ^ (52 - L) := by
            have : 0 < 2 ^ (52 - L) := by positivity
            exact Nat.mul_lt_mul_of_pos_right l2 this
        _ = 2 ^ 53 := by rw [← pow_add]; congr 1; omega
    have m63 : (L + 1022) * 2 ^ 52 + n * 2 ^ (52 - L) < 2 ^ 63 := by omega
    obtain ⟨p1, p2, -⟩ := magnitudeOf_pos _ m63
    have val := magnitudeValue_mk (L + 1022) (n * 2 ^ (52 - L)) (.inr q1) q2.le
    have e : ((n * 2 ^ (52 - L) : ℕ) : ℚ) * (2 : ℚ) ^ (((L + 1022 : ℕ) : ℤ) - 1074) = n := by
      rw [show (((L + 1022 : ℕ) : ℤ) - 1074) = -((52 - L : ℕ) : ℤ) by omega, zpow_neg, zpow_natCast]
      push_cast
      field_simp
    rw [e] at val
    rw [← hx]
    refine rne64_exact (.ofInt n) (Nat.zero_lt_one) hr (BitVec.ofNat 64 ((L + 1022) * 2 ^ 52 + n * 2 ^ (52 - L))) ?_ ?_
    · simp only [b64Finite, b64Exponent_eq, p1, bne_iff_ne, ne_eq]
      omega
    · rw [b64Value_toRat, p1, p2, val, hx]
      simp

/-! ### Exact fractions -/

theorem Frac.toRat_ofInt (n : Int) : (Frac.ofInt n).toRat = n := by simp [Frac.ofInt, Frac.toRat]

theorem Frac.toRat_mul (x y : Frac) : (x.mul y).toRat = x.toRat * y.toRat := by
  simp [Frac.mul, Frac.toRat, div_mul_div_comm]

theorem Frac.toRat_add (x y : Frac) (hx : 0 < x.den) (hy : 0 < y.den) : (x.add y).toRat = x.toRat + y.toRat := by
  have : (x.den : ℚ) ≠ 0 := by positivity
  have : (y.den : ℚ) ≠ 0 := by positivity
  simp only [Frac.add, Frac.toRat]
  push_cast
  field_simp

theorem Frac.toRat_sub (x y : Frac) (hx : 0 < x.den) (hy : 0 < y.den) : (x.sub y).toRat = x.toRat - y.toRat := by
  have : (x.den : ℚ) ≠ 0 := by positivity
  have : (y.den : ℚ) ≠ 0 := by positivity
  simp only [Frac.sub, Frac.toRat]
  push_cast
  field_simp

theorem Frac.toRat_div (x y : Frac) (hy : y.num ≠ 0) : (x.div y).toRat = x.toRat / y.toRat := by
  have hn : (y.num : ℚ) ≠ 0 := by exact_mod_cast hy
  have habs : ((y.num.natAbs : ℕ) : ℚ) = y.num.sign * y.num := by
    rw [← Int.cast_natCast, ← Int.sign_mul_self_eq_natAbs, Int.cast_mul]
  have hs : ((y.num.sign : ℤ) : ℚ) ≠ 0 := by exact_mod_cast fun h => hy (Int.sign_eq_zero_iff_zero.1 h)
  simp only [Frac.div, Frac.toRat]
  rw [Nat.cast_mul, habs]
  push_cast
  field_simp

theorem b64Value_den_pos (w : B64) : 0 < (b64Value w).den := by
  simp only [b64Value]
  split <;> simp

end Sys2Proof.Machine
end

