-- ==== Sys2Proof/Laws/State.lean ====
section
/-! SUPPORT. One lemma for each field and each update of State. -/

namespace Sys2Proof.Machine

variable (s : State)

@[simp] theorem State.latch_fpRender (len : ReqLen) (data : Record) : (s.latch len data).fpRender = s.fpRender := rfl
@[simp] theorem State.latch_reqValid (len : ReqLen) (data : Record) : (s.latch len data).reqValid = true := rfl
@[simp] theorem State.latch_reqStable (len : ReqLen) (data : Record) : (s.latch len data).reqStable = true := rfl
@[simp] theorem State.latch_reqLen (len : ReqLen) (data : Record) : (s.latch len data).reqLen = len := rfl
@[simp] theorem State.latch_buf (len : ReqLen) (data : Record) : (s.latch len data).buf = presentBuffer len data := rfl
@[simp] theorem State.latch_wordT (len : ReqLen) (data : Record) : (s.latch len data).wordT = s.wordT := rfl
@[simp] theorem State.latch_wordL1 (len : ReqLen) (data : Record) : (s.latch len data).wordL1 = s.wordL1 := rfl
@[simp] theorem State.latch_wordL2 (len : ReqLen) (data : Record) : (s.latch len data).wordL2 = s.wordL2 := rfl
@[simp] theorem State.latch_byteF (len : ReqLen) (data : Record) : (s.latch len data).byteF = s.byteF := rfl
@[simp] theorem State.latch_byteN (len : ReqLen) (data : Record) : (s.latch len data).byteN = s.byteN := rfl
@[simp] theorem State.latch_out (len : ReqLen) (data : Record) : (s.latch len data).out = s.out := rfl
@[simp] theorem State.latch_rsp (len : ReqLen) (data : Record) : (s.latch len data).rsp = s.rsp := rfl
@[simp] theorem State.latch_freeCount (len : ReqLen) (data : Record) : (s.latch len data).freeCount = s.freeCount := rfl

@[simp] theorem State.clearOut_fpRender : (s.clearOut).fpRender = s.fpRender := rfl
@[simp] theorem State.clearOut_reqValid : (s.clearOut).reqValid = s.reqValid := rfl
@[simp] theorem State.clearOut_reqStable : (s.clearOut).reqStable = s.reqStable := rfl
@[simp] theorem State.clearOut_reqLen : (s.clearOut).reqLen = s.reqLen := rfl
@[simp] theorem State.clearOut_buf : (s.clearOut).buf = s.buf := rfl
@[simp] theorem State.clearOut_wordT : (s.clearOut).wordT = s.wordT := rfl
@[simp] theorem State.clearOut_wordL1 : (s.clearOut).wordL1 = s.wordL1 := rfl
@[simp] theorem State.clearOut_wordL2 : (s.clearOut).wordL2 = s.wordL2 := rfl
@[simp] theorem State.clearOut_byteF : (s.clearOut).byteF = s.byteF := rfl
@[simp] theorem State.clearOut_byteN : (s.clearOut).byteN = s.byteN := rfl
@[simp] theorem State.clearOut_out : (s.clearOut).out = .blank := rfl
@[simp] theorem State.clearOut_rsp : (s.clearOut).rsp = s.rsp := rfl
@[simp] theorem State.clearOut_freeCount : (s.clearOut).freeCount = s.freeCount := rfl

@[simp] theorem State.setOperands_fpRender (t l1 l2 : Word) (f n : Byte) : (s.setOperands t l1 l2 f n).fpRender = s.fpRender := rfl
@[simp] theorem State.setOperands_reqValid (t l1 l2 : Word) (f n : Byte) : (s.setOperands t l1 l2 f n).reqValid = s.reqValid := rfl
@[simp] theorem State.setOperands_reqStable (t l1 l2 : Word) (f n : Byte) : (s.setOperands t l1 l2 f n).reqStable = s.reqStable := rfl
@[simp] theorem State.setOperands_reqLen (t l1 l2 : Word) (f n : Byte) : (s.setOperands t l1 l2 f n).reqLen = s.reqLen := rfl
@[simp] theorem State.setOperands_buf (t l1 l2 : Word) (f n : Byte) : (s.setOperands t l1 l2 f n).buf = s.buf := rfl
@[simp] theorem State.setOperands_wordT (t l1 l2 : Word) (f n : Byte) : (s.setOperands t l1 l2 f n).wordT = t := rfl
@[simp] theorem State.setOperands_wordL1 (t l1 l2 : Word) (f n : Byte) : (s.setOperands t l1 l2 f n).wordL1 = l1 := rfl
@[simp] theorem State.setOperands_wordL2 (t l1 l2 : Word) (f n : Byte) : (s.setOperands t l1 l2 f n).wordL2 = l2 := rfl
@[simp] theorem State.setOperands_byteF (t l1 l2 : Word) (f n : Byte) : (s.setOperands t l1 l2 f n).byteF = f := rfl
@[simp] theorem State.setOperands_byteN (t l1 l2 : Word) (f n : Byte) : (s.setOperands t l1 l2 f n).byteN = n := rfl
@[simp] theorem State.setOperands_out (t l1 l2 : Word) (f n : Byte) : (s.setOperands t l1 l2 f n).out = s.out := rfl
@[simp] theorem State.setOperands_rsp (t l1 l2 : Word) (f n : Byte) : (s.setOperands t l1 l2 f n).rsp = s.rsp := rfl
@[simp] theorem State.setOperands_freeCount (t l1 l2 : Word) (f n : Byte) : (s.setOperands t l1 l2 f n).freeCount = s.freeCount := rfl

@[simp] theorem State.setOut_fpRender (d : DecodedTelemetry) : (s.setOut d).fpRender = s.fpRender := rfl
@[simp] theorem State.setOut_reqValid (d : DecodedTelemetry) : (s.setOut d).reqValid = s.reqValid := rfl
@[simp] theorem State.setOut_reqStable (d : DecodedTelemetry) : (s.setOut d).reqStable = s.reqStable := rfl
@[simp] theorem State.setOut_reqLen (d : DecodedTelemetry) : (s.setOut d).reqLen = s.reqLen := rfl
@[simp] theorem State.setOut_buf (d : DecodedTelemetry) : (s.setOut d).buf = s.buf := rfl
@[simp] theorem State.setOut_wordT (d : DecodedTelemetry) : (s.setOut d).wordT = s.wordT := rfl
@[simp] theorem State.setOut_wordL1 (d : DecodedTelemetry) : (s.setOut d).wordL1 = s.wordL1 := rfl
@[simp] theorem State.setOut_wordL2 (d : DecodedTelemetry) : (s.setOut d).wordL2 = s.wordL2 := rfl
@[simp] theorem State.setOut_byteF (d : DecodedTelemetry) : (s.setOut d).byteF = s.byteF := rfl
@[simp] theorem State.setOut_byteN (d : DecodedTelemetry) : (s.setOut d).byteN = s.byteN := rfl
@[simp] theorem State.setOut_out (d : DecodedTelemetry) : (s.setOut d).out = d := rfl
@[simp] theorem State.setOut_rsp (d : DecodedTelemetry) : (s.setOut d).rsp = s.rsp := rfl
@[simp] theorem State.setOut_freeCount (d : DecodedTelemetry) : (s.setOut d).freeCount = s.freeCount := rfl

@[simp] theorem State.respond_fpRender (r : Response) : (s.respond r).fpRender = s.fpRender := rfl
@[simp] theorem State.respond_reqValid (r : Response) : (s.respond r).reqValid = false := rfl
@[simp] theorem State.respond_reqStable (r : Response) : (s.respond r).reqStable = true := rfl
@[simp] theorem State.respond_reqLen (r : Response) : (s.respond r).reqLen = s.reqLen := rfl
@[simp] theorem State.respond_buf (r : Response) : (s.respond r).buf = s.buf := rfl
@[simp] theorem State.respond_wordT (r : Response) : (s.respond r).wordT = 0 := rfl
@[simp] theorem State.respond_wordL1 (r : Response) : (s.respond r).wordL1 = 0 := rfl
@[simp] theorem State.respond_wordL2 (r : Response) : (s.respond r).wordL2 = 0 := rfl
@[simp] theorem State.respond_byteF (r : Response) : (s.respond r).byteF = 0 := rfl
@[simp] theorem State.respond_byteN (r : Response) : (s.respond r).byteN = 0 := rfl
@[simp] theorem State.respond_out (r : Response) : (s.respond r).out = .blank := rfl
@[simp] theorem State.respond_rsp (r : Response) : (s.respond r).rsp = some r := rfl
@[simp] theorem State.respond_freeCount (r : Response) : (s.respond r).freeCount = s.freeCount := rfl

@[simp] theorem State.countFree_fpRender : (s.countFree).fpRender = s.fpRender := rfl
@[simp] theorem State.countFree_reqValid : (s.countFree).reqValid = s.reqValid := rfl
@[simp] theorem State.countFree_reqStable : (s.countFree).reqStable = s.reqStable := rfl
@[simp] theorem State.countFree_reqLen : (s.countFree).reqLen = s.reqLen := rfl
@[simp] theorem State.countFree_buf : (s.countFree).buf = s.buf := rfl
@[simp] theorem State.countFree_wordT : (s.countFree).wordT = s.wordT := rfl
@[simp] theorem State.countFree_wordL1 : (s.countFree).wordL1 = s.wordL1 := rfl
@[simp] theorem State.countFree_wordL2 : (s.countFree).wordL2 = s.wordL2 := rfl
@[simp] theorem State.countFree_byteF : (s.countFree).byteF = s.byteF := rfl
@[simp] theorem State.countFree_byteN : (s.countFree).byteN = s.byteN := rfl
@[simp] theorem State.countFree_out : (s.countFree).out = s.out := rfl
@[simp] theorem State.countFree_rsp : (s.countFree).rsp = s.rsp := rfl
@[simp] theorem State.countFree_freeCount : (s.countFree).freeCount = s.freeCount + 1 := rfl

@[simp] theorem State.afterReset_fpRender : (s.afterReset).fpRender = s.fpRender := rfl
@[simp] theorem State.afterReset_reqValid : (s.afterReset).reqValid = false := rfl
@[simp] theorem State.afterReset_reqStable : (s.afterReset).reqStable = true := rfl
@[simp] theorem State.afterReset_reqLen : (s.afterReset).reqLen = 0 := rfl
@[simp] theorem State.afterReset_buf : (s.afterReset).buf = [] := rfl
@[simp] theorem State.afterReset_wordT : (s.afterReset).wordT = 0 := rfl
@[simp] theorem State.afterReset_wordL1 : (s.afterReset).wordL1 = 0 := rfl
@[simp] theorem State.afterReset_wordL2 : (s.afterReset).wordL2 = 0 := rfl
@[simp] theorem State.afterReset_byteF : (s.afterReset).byteF = 0 := rfl
@[simp] theorem State.afterReset_byteN : (s.afterReset).byteN = 0 := rfl
@[simp] theorem State.afterReset_out : (s.afterReset).out = .blank := rfl
@[simp] theorem State.afterReset_rsp : (s.afterReset).rsp = none := rfl
@[simp] theorem State.afterReset_freeCount : (s.afterReset).freeCount = s.freeCount := rfl

end Sys2Proof.Machine
end

