-- ==== Sys2Proof/Laws/Ops.lean ====
section
/-! SUPPORT. What each shared operation can do, said once. -/

namespace Sys2Proof.Machine

/-! ### The request buffer -/

theorem presentedBytes_le (len : ReqLen) : presentedBytes len ≤ 14 := by
  unfold presentedBytes
  omega

theorem presentedBytes_of_long {len : ReqLen} (h : 14 ≤ len.toNat) : presentedBytes len = 14 := by
  unfold presentedBytes
  omega

theorem presentBuffer_offsets (len : ReqLen) (data : Record) :
    (presentBuffer len data).map Prod.fst = List.range (presentedBytes len) := by
  simp [presentBuffer, Function.comp_def]

/-- Presenting a request, the only operation that makes a buffer, makes a canonical one. -/
theorem presentBuffer_wf (len : ReqLen) (data : Record) : Memory.wf (presentBuffer len data) := by
  unfold Memory.wf
  rw [presentBuffer_offsets]
  exact List.pairwise_lt_range

/-- Ending a transaction leaves the buffer as it is (R51). -/
theorem State.respond_buf_wf {s : State} (h : Memory.wf s.buf) (r : Response) : Memory.wf (s.respond r).buf :=
  h

theorem State.latch_buf_wf (s : State) (len : ReqLen) (data : Record) : Memory.wf (s.latch len data).buf :=
  presentBuffer_wf len data

theorem reset_buf_wf : Memory.wf State.reset.buf :=
  List.Pairwise.nil

/-- Reading one byte of a list of cells made from distinct offsets. -/
theorem readByte_map (f : Nat → Byte) (offsets : List Nat) (addr : Nat) :
    readByte (offsets.map fun b => (b, f b)) addr = if addr ∈ offsets then some (f addr) else none := by
  induction offsets with
  | nil => rfl
  | cons a rest ih =>
    simp only [List.map_cons, readByte, List.mem_cons]
    by_cases h : a = addr
    · simp [h]
    · simp [h, ih, Ne.symm h]

/-- A byte of a presented request is its lane, and an absent lane is no byte (R22, R23). -/
theorem readByte_presentBuffer (len : ReqLen) (data : Record) (addr : Nat) :
    readByte (presentBuffer len data) addr = if addr < presentedBytes len then some (lane data addr) else none := by
  simp [presentBuffer, readByte_map]

theorem readBytes_length {m : Memory} {n addr : Nat} {bs : List Byte} (h : readBytes m addr n = some bs) :
    bs.length = n := by
  induction n generalizing addr bs with
  | zero => simp_all [readBytes]
  | succ n ih =>
    simp only [readBytes] at h
    split at h
    · next b rest hb hrest =>
      cases h
      simp [ih hrest]
    · cases h

/-! ### The operand load -/

/-- The load answers exactly when all five reads do, and then it writes the five operand words and nothing
else (R24, R25). -/
theorem loadOperands_some {m : Memory} {s s' : State} (h : loadOperands m s = some s') :
    ∃ t l1 l2 f n : Nat,
      memRead m 0 4 = some t ∧ memRead m 4 4 = some l1 ∧ memRead m 8 4 = some l2 ∧
      memRead m 12 1 = some f ∧ memRead m 13 1 = some n ∧
      s' = s.setOperands (BitVec.ofNat 32 t) (BitVec.ofNat 32 l1) (BitVec.ofNat 32 l2)
        (BitVec.ofNat 8 f) (BitVec.ofNat 8 n) := by
  unfold loadOperands at h
  split at h
  · next t l1 l2 f n h1 h2 h3 h4 h5 => exact ⟨t, l1, l2, f, n, h1, h2, h3, h4, h5, (Option.some.inj h).symm⟩
  · cases h

/-! ### Sequencing -/

@[simp] theorem andThen_next (s : State) (f : State → Outcome) : andThen (.next s) f = f s := rfl

theorem andThen_eq_next {o : Outcome} {f : State → Outcome} {t : State} (h : andThen o f = .next t) :
    ∃ s, o = .next s ∧ f s = .next t := by
  cases o with
  | next s => exact ⟨s, rfl, h⟩
  | fault r => cases h
  | refused r => cases h

@[simp] theorem runAll_nil (s : State) : runAll [] s = .next s := rfl

theorem runAll_cons (op : State → Outcome) (ops : List (State → Outcome)) (s : State) :
    runAll (op :: ops) s = andThen (op s) (runAll ops) := rfl

theorem runAll_append (ops ops' : List (State → Outcome)) (s : State) :
    runAll (ops ++ ops') s = andThen (runAll ops s) (runAll ops') := by
  induction ops generalizing s with
  | nil => rfl
  | cons op rest ih =>
    simp only [List.cons_append, runAll_cons]
    cases op s with
    | next t => exact ih t
    | fault r => rfl
    | refused r => rfl

/-- A property that every operation of a list keeps is kept by the whole list. -/
theorem runAll_invariant {ops : List (State → Outcome)} {P : State → Prop}
    (keep : ∀ op ∈ ops, ∀ s t, P s → op s = .next t → P t) {s t : State} (hs : P s)
    (h : runAll ops s = .next t) : P t := by
  induction ops generalizing s with
  | nil =>
    cases h
    exact hs
  | cons op rest ih =>
    obtain ⟨u, hu, hrest⟩ := andThen_eq_next h
    exact ih (fun o ho => keep o (List.mem_cons_of_mem op ho)) (keep op List.mem_cons_self s u hs hu) hrest

/-! ### The exception and the response -/

/-- Taking the exception writes the error response and ends the transaction (R173). -/
theorem raiseTruncated_eq (s : State) : raiseTruncated s = s.respond (.err .truncatedInputError) := rfl

theorem respondOk_eq (s : State) : respondOk s = s.respond (.ok s.out) := rfl

/-- A response overwrites the one before it wholly, and it does not depend on the operand words or `out` of the
state it is written to (R31, R32). -/
@[simp] theorem State.respond_respond (s : State) (r r' : Response) : (s.respond r).respond r' = s.respond r' := rfl

@[simp] theorem State.respond_setOut (s : State) (d : DecodedTelemetry) (r : Response) :
    (s.setOut d).respond r = s.respond r := rfl

@[simp] theorem State.respond_clearOut (s : State) (r : Response) : s.clearOut.respond r = s.respond r := rfl

@[simp] theorem State.respond_setOperands (s : State) (t l1 l2 : Word) (f n : Byte) (r : Response) :
    (s.setOperands t l1 l2 f n).respond r = s.respond r := rfl

@[simp] theorem State.setOut_setOut (s : State) (d d' : DecodedTelemetry) :
    (s.setOut d).setOut d' = s.setOut d' := rfl

/-! ### Ports and instances -/

theorem zeroF64_isSome (fp : FpRender) : (zeroF64 fp).isSome = true ↔ fp ≠ .none := by
  cases fp <;> simp [zeroF64]

@[simp] theorem System.setBlock_fpRender (sys : System) (k : Nat) (t : State) :
    (sys.setBlock k t).fpRender = sys.fpRender := by
  cases k <;> rfl

/-- Every instance of a system has the system's FP_RENDER. -/
theorem System.block_fpRender {sys : System} {k : Nat} {s : State} (h : sys.block k = some s) :
    s.fpRender = sys.fpRender := by
  cases k with
  | zero =>
    cases h
    rfl
  | succ j =>
    obtain ⟨u, _, hu⟩ := Option.map_eq_some_iff.1 h
    rw [← hu]

/-- Changing one instance leaves every other as it is (R61). -/
theorem System.block_setBlock_ne {sys : System} {j k : Nat} (t : State) (h : j ≠ k) :
    (sys.setBlock k t).block j = sys.block j := by
  cases j <;> cases k <;> simp_all [System.setBlock, System.block]
  rw [List.getElem?_set_ne (Ne.symm h)]

/-- Changing an instance that there is gives it the new state, which stays of the system's build. -/
theorem System.block_setBlock_self {sys : System} {k : Nat} {s t : State} (h : sys.block k = some s)
    (ht : t.fpRender = sys.fpRender) : (sys.setBlock k t).block k = some t := by
  cases k with
  | zero => simp [System.setBlock, System.block, ← ht]
  | succ j =>
    obtain ⟨u, hu, _⟩ := Option.map_eq_some_iff.1 h
    have hj := (List.getElem?_eq_some_iff.1 hu).1
    simp [System.setBlock, System.block, hj, ← ht]

/-! ### Renderings -/

/-- A rendering exists exactly when FP_RENDER is not NONE (R148). -/
theorem renderLat_isSome (fp : FpRender) (raw : BitVec 30) : (renderLat fp raw).isSome = true ↔ fp ≠ .none := by
  cases fp <;> simp [renderLat]

theorem renderLon_isSome (fp : FpRender) (raw : BitVec 31) : (renderLon fp raw).isSome = true ↔ fp ≠ .none := by
  cases fp <;> simp [renderLon]

theorem renderSst_isSome (fp : FpRender) (raw : BitVec 12) : (renderSst fp raw).isSome = true ↔ fp ≠ .none := by
  cases fp <;> simp [renderSst]

theorem renderBatt_isSome (fp : FpRender) (raw : BitVec 4) : (renderBatt fp raw).isSome = true ↔ fp ≠ .none := by
  cases fp <;> simp [renderBatt]

/-! ### The transaction -/

/-- After the length check DECODE ends in the error response where the operand load would leave the buffer, and
else in the response that holds what the datapath operations wrote (R53, R104). -/
theorem decodeRecord_cases {m : Memory} {s t : State} (h : decodeRecord m s = .next t) :
    (loadOperands m s = none ∧ t = raiseTruncated s) ∨
    (∃ loaded done, loadOperands m s = some loaded ∧
      runAll (fixedOps ++ renderOps s.fpRender) loaded = .next done ∧ t = respondOk done) := by
  unfold decodeRecord at h
  split at h
  · next hl =>
    cases h
    exact .inl ⟨hl, rfl⟩
  · next loaded hl =>
    obtain ⟨done, hd, ht⟩ := andThen_eq_next h
    cases ht
    exact .inr ⟨loaded, done, hl, hd, rfl⟩

/-! ### The step -/

/-- Everything one step can do: idle, one DECODE, or the answer to a disturbed request. -/
theorem step_cases {s t : State} (h : step s = .next t) :
    (s.reqValid = false ∧ t = s) ∨
    (s.reqValid = true ∧ s.reqStable = true ∧ execDecode (wordLen s.requestWord) (wordData s.requestWord) s = .next t) ∨
    (s.reqValid = true ∧ s.reqStable = false ∧ t = respondDisturbed s) := by
  unfold step at h
  split at h
  · next hv =>
    split at h
    · next hs => exact .inr (.inl ⟨hv, hs, h⟩)
    · next hs =>
      cases h
      exact .inr (.inr ⟨hv, by simpa using hs, rfl⟩)
  · next hv =>
    cases h
    exact .inl ⟨by simpa using hv, rfl⟩

end Sys2Proof.Machine
end

