-- ==== Sys2Proof/Laws/PerInstr.lean ====
section
/-! SUPPORT. Statements made for each operation: one lemma for each constructor of Instr. -/

namespace Sys2Proof.Laws

/-- R80: DECODE is the one operation a request selects. -/
def selectable : Instr → Bool
  | .decode _ _ => true
  | .extYear => false
  | .extMonth => false
  | .extDay => false
  | .extSecs => false
  | .extLat => false
  | .extLon => false
  | .extSubm => false
  | .extGps => false
  | .extSst => false
  | .extBatt => false
  | .cvtYear => false
  | .cvtLat => false
  | .cvtLon => false
  | .cvtSst => false
  | .cvtBatt => false
  | .f64Lat => false
  | .f64Lon => false
  | .f64Sst => false
  | .f64Batt => false

/-- An operation has a request word exactly when a request can select it (R80, R83). -/
def EncodableIffSelectable.Statement (i : Instr) : Prop :=
  (encode i).isSome = selectable i

theorem EncodableIffSelectable.decode (len : ReqLen) (data : Record) :
    EncodableIffSelectable.Statement (.decode len data) := rfl

theorem EncodableIffSelectable.extYear : EncodableIffSelectable.Statement .extYear := rfl

theorem EncodableIffSelectable.extMonth : EncodableIffSelectable.Statement .extMonth := rfl

theorem EncodableIffSelectable.extDay : EncodableIffSelectable.Statement .extDay := rfl

theorem EncodableIffSelectable.extSecs : EncodableIffSelectable.Statement .extSecs := rfl

theorem EncodableIffSelectable.extLat : EncodableIffSelectable.Statement .extLat := rfl

theorem EncodableIffSelectable.extLon : EncodableIffSelectable.Statement .extLon := rfl

theorem EncodableIffSelectable.extSubm : EncodableIffSelectable.Statement .extSubm := rfl

theorem EncodableIffSelectable.extGps : EncodableIffSelectable.Statement .extGps := rfl

theorem EncodableIffSelectable.extSst : EncodableIffSelectable.Statement .extSst := rfl

theorem EncodableIffSelectable.extBatt : EncodableIffSelectable.Statement .extBatt := rfl

theorem EncodableIffSelectable.cvtYear : EncodableIffSelectable.Statement .cvtYear := rfl

theorem EncodableIffSelectable.cvtLat : EncodableIffSelectable.Statement .cvtLat := rfl

theorem EncodableIffSelectable.cvtLon : EncodableIffSelectable.Statement .cvtLon := rfl

theorem EncodableIffSelectable.cvtSst : EncodableIffSelectable.Statement .cvtSst := rfl

theorem EncodableIffSelectable.cvtBatt : EncodableIffSelectable.Statement .cvtBatt := rfl

theorem EncodableIffSelectable.f64Lat : EncodableIffSelectable.Statement .f64Lat := rfl

theorem EncodableIffSelectable.f64Lon : EncodableIffSelectable.Statement .f64Lon := rfl

theorem EncodableIffSelectable.f64Sst : EncodableIffSelectable.Statement .f64Sst := rfl

theorem EncodableIffSelectable.f64Batt : EncodableIffSelectable.Statement .f64Batt := rfl

end Sys2Proof.Laws
end

