-- ==== Sys2Proof/Machine/Text.lean ====
section
/-! DEFINITION. The written form of requests and responses (30_encoding.md section 6, R83), on lists of
characters so that the kernel can evaluate it. -/

namespace Sys2Proof.Machine

/-- A hexadecimal digit, either case (log 22). -/
def hexDigit (c : Char) : Option Nat :=
  let n := c.toNat
  if 48 ≤ n ∧ n ≤ 57 then some (n - 48)
  else if 65 ≤ n ∧ n ≤ 70 then some (n - 55)
  else if 97 ≤ n ∧ n ≤ 102 then some (n - 87)
  else none

/-- R83: hexadecimal bytes with optional spaces between bytes. -/
def parseHex : List Char → Option (List Byte)
  | [] => some []
  | [c] => if c = ' ' then some [] else none
  | c :: d :: rest =>
    if c = ' ' then parseHex (d :: rest)
    else
      match hexDigit c, hexDigit d, parseHex rest with
      | some hi, some lo, some bs => some (BitVec.ofNat 8 (16 * hi + lo) :: bs)
      | _, _, _ => none

/-- R83: `DECODE <hex>`, the only thing a program can hold. None where the text is not of that form. -/
def assemble (text : List Char) : Option Instr :=
  match text with
  | 'D' :: 'E' :: 'C' :: 'O' :: 'D' :: 'E' :: rest =>
    match rest with
    | [] => some (decodeBuffer [])
    | c :: hex => if c = ' ' then (parseHex hex).map decodeBuffer else none
  | _ => none

/-- A decimal number. -/
def showNat (n : Nat) : List Char := Nat.toDigits 10 n

/-- A signed decimal number. -/
def showInt (i : Int) : List Char :=
  if i < 0 then '-' :: showNat i.natAbs else showNat i.natAbs

/-- The named fields of a successful response in the order of 10_state.md section 3; the binary64 fields as
the number of their encoding, where present (log 22). -/
def fieldTexts (d : DecodedTelemetry) : List (List Char × List Char) :=
  let f64 (name : String) (v : Option B64) : List (List Char × List Char) :=
    match v with
    | none => []
    | some w => [(name.toList, showNat w.toNat)]
  [("YEAR".toList, showNat d.year.toNat), ("YEAR_RAW".toList, showNat d.yearRaw.toNat),
   ("MONTH".toList, showNat d.month.toNat), ("DAY".toList, showNat d.day.toNat),
   ("SECS".toList, showNat d.secs.toNat),
   ("LAT_RAW".toList, showNat d.latRaw.toNat), ("LAT_FX".toList, showInt d.latFx.toInt),
   ("LON_RAW".toList, showNat d.lonRaw.toNat), ("LON_FX".toList, showInt d.lonFx.toInt),
   ("SUBMERGED".toList, showNat d.submerged.toNat), ("GPSFLAG".toList, showNat d.gpsFlag.toNat),
   ("SST_RAW".toList, showNat d.sstRaw.toNat), ("SST_FX".toList, showInt d.sstFx.toInt),
   ("BATT_RAW".toList, showNat d.battRaw.toNat), ("BATT_FX".toList, showNat d.battFx.toNat)]
  ++ f64 "LAT_F64" d.latF64 ++ f64 "LON_F64" d.lonF64 ++ f64 "SST_F64" d.sstF64 ++ f64 "BATT_F64" d.battF64

/-- R83: `-> OK` with the fields in braces, or `-> ERR TruncatedInputError`. -/
def showResponse (r : Response) : List Char :=
  match r with
  | .err .truncatedInputError => "-> ERR TruncatedInputError".toList
  | .ok d =>
    let fields := (fieldTexts d).map fun p => p.1 ++ ['='] ++ p.2
    "-> OK ".toList ++ [Char.ofNat 123] ++ (fields.intersperse (", ".toList)).flatten ++ [Char.ofNat 125]

end Sys2Proof.Machine
end

