-- ==== Sys2Proof/Tests/Slice0.lean ====
section
/-! SUPPORT. Tests against the vectors of spec/95_test_vectors.md and the examples of the rules, and for each
statement with hypotheses a state and operands that meet them. -/

namespace Sys2Proof.Tests

open Sys2Proof.Machine

/-! ### Helpers -/

/-- Record E1, vector S3. -/
def e1 : Record := 0x619EA8C0744CF30018C89AC0D243#112

/-- E1 presented to a block after reset. -/
def presented : State := State.reset.latch 14 e1

/-- A block built with the given FP_RENDER, in the middle of E1's transaction: the operand words are loaded. -/
def working (fp : FpRender) : State :=
  { State.reset.setOperands 0x619EA8C0 0x744CF300 0x18C89AC0 0xD2 0x43 with fpRender := fp }

/-- A block built with the given FP_RENDER whose extractors wrote the given raw values. -/
def withRaw (fp : FpRender) (lat : BitVec 30) (lon : BitVec 31) (sst : BitVec 12) (batt : BitVec 4) : State :=
  { State.reset with
    fpRender := fp
    out := { DecodedTelemetry.blank with latRaw := lat, lonRaw := lon, sstRaw := sst, battRaw := batt } }

/-- What a finished operation left in `out`. -/
def outOf (o : Outcome) : Option DecodedTelemetry :=
  match o with
  | .next s => some s.out
  | _ => none

/-- The response after a finished step. -/
def rspOf (o : Outcome) : Option Response :=
  match o with
  | .next s => s.rsp
  | _ => none

/-! ### Well-formedness refuses an ill-formed term for each check -/

-- R23: 13 bytes, but byte lane 13 is driven with 0x43.
theorem test_wf_refuses_driven_absent_lane : (Instr.decode 13 e1).wellFormed .none = false := by decide
theorem test_wf_takes_zero_absent_lane :
    (Instr.decode 13 0x619EA8C0744CF30018C89AC0D200#112).wellFormed .none = true := by decide
-- R148: no F64 operation under NONE.
theorem test_wf_refuses_f64_under_none :
    ([Instr.f64Lat, .f64Lon, .f64Sst, .f64Batt].map (Instr.wellFormed .none)) = [false, false, false, false] := by
  decide

/-! ### Decoding: words written out from 30_encoding.md section 1, length port in bits 3:0 -/

-- D1: the empty buffer.
theorem test_decode_word_empty : decodeTableWord 116 0 = some (.decode 0 0) := by decide
-- D4: 15 bytes, E1 on the data port.
theorem test_decode_word_d4 : decodeTableWord 116 0x619EA8C0744CF30018C89AC0D243F = some (.decode 15 e1) := by
  decide +kernel
-- R80, R83: no datapath operation has a word.
theorem test_no_word_for_datapath : encode .extYear = none ∧ encode .cvtLat = none ∧ encode .f64Sst = none := by decide
-- R83: the written form of D2, 13 bytes.
theorem test_assemble_d2 : assemble "DECODE 619ea8c0 744cf300 18c89ac0 d2".toList =
    some (.decode 13 0x619EA8C0744CF30018C89AC0D200#112) := by decide +kernel
theorem test_show_error :
    showResponse (.err .truncatedInputError) = "-> ERR TruncatedInputError".toList := by decide

/-! ### DECODE -/

-- S3.
theorem test_step_s3 : rspOf (step presented) = some (.ok
    { year := 2024, yearRaw := 24, month := 6, day := 15, secs := 43200,
      latRaw := 487800000, latFx := 163800000, lonRaw := 207900000, lonFx := BitVec.ofInt 32 (-440100000),
      submerged := true, gpsFlag := 2, sstRaw := 2337, sstFx := 1837, battRaw := 3, battFx := 13,
      latF64 := none, lonF64 := none, sstF64 := none, battF64 := none }) := by decide +kernel
-- S2: all ones, with YEAR = 2063 (log 24).
theorem test_step_s2 : rspOf (step (State.reset.latch 14 (BitVec.allOnes 112))) = some (.ok
    { year := 2063, yearRaw := 63, month := 15, day := 31, secs := 131071,
      latRaw := 1073741823, latFx := 749741823, lonRaw := 2147483647, lonFx := 1499483647,
      submerged := true, gpsFlag := 3, sstRaw := 4095, sstFx := 3595, battRaw := 15, battFx := 25,
      latF64 := none, lonF64 := none, sstF64 := none, battF64 := none }) := by decide +kernel
-- D2, and D1 as it stands after withFetchWord.
theorem test_step_d2 : rspOf (step (State.reset.latch 13 e1)) = some (.err .truncatedInputError) := by decide +kernel
theorem test_fetch_word : step (State.reset.withFetchWord 116 0x619EA8C0744CF30018C89AC0D243E) = step presented := by
  rfl

/-! ### Extractors: the examples of R121 to R130, and one field alone (X1 to X15) -/

theorem test_ext_of_t : outOf (exec .extYear (working .none)) = some { DecodedTelemetry.blank with yearRaw := 24 } ∧
    outOf (exec .extMonth (working .none)) = some { DecodedTelemetry.blank with month := 6 } ∧
    outOf (exec .extDay (working .none)) = some { DecodedTelemetry.blank with day := 15 } ∧
    outOf (exec .extSecs (working .none)) = some { DecodedTelemetry.blank with secs := 43200 } := by decide +kernel
theorem test_ext_of_l : outOf (exec .extLat (working .none)) = some { DecodedTelemetry.blank with latRaw := 487800000 } ∧
    outOf (exec .extLon (working .none)) = some { DecodedTelemetry.blank with lonRaw := 207900000 } := by decide +kernel
theorem test_ext_of_fn : outOf (exec .extSubm (working .none)) = some { DecodedTelemetry.blank with submerged := true } ∧
    outOf (exec .extGps (working .none)) = some { DecodedTelemetry.blank with gpsFlag := 2 } ∧
    outOf (exec .extSst (working .none)) = some { DecodedTelemetry.blank with sstRaw := 2337 } ∧
    outOf (exec .extBatt (working .none)) = some { DecodedTelemetry.blank with battRaw := 3 } := by decide +kernel
-- X1 to X4: the fields of T alone.
theorem test_fields_of_t_alone :
    (yearRawOf 0xFC000000, monthOf 0xFC000000) = (63, 0) ∧ (monthOf 0x03C00000, dayOf 0x03C00000) = (15, 0) ∧
    (dayOf 0x003E0000, secsOf 0x003E0000) = (31, 0) ∧ (secsOf 0x0001FFFF, dayOf 0x0001FFFF) = (131071, 0) := by decide
-- X5, X7, C2, C3: no sign extension; X6, X8: dropped bits.
theorem test_position_is_unsigned : latRawOf 0xFFFFFFFC = 1073741823 ∧ latRawOf 0x80000000 = 536870912 ∧
    latRawOf 3 = 0 ∧ lonRawOf 0xFFFFFFFE = 2147483647 ∧ lonRawOf 0x80000000 = 1073741824 ∧ lonRawOf 1 = 0 := by decide
-- X9 to X15.
theorem test_bytes_f_and_n_alone : (submergedOf 0x80, gpsFlagOf 0x80) = (true, 0) ∧
    (submergedOf 0x60, gpsFlagOf 0x60) = (false, 3) ∧ sstRawOf 0x1F 0 = 3968 ∧ sstRawOf 0 0xF0 = 120 ∧
    (sstRawOf 0 0x0E, battRawOf 0x0E) = (7, 14) ∧ (sstRawOf 0 1, battRawOf 1) = (0, 1) ∧
    (sstRawOf 0x1F 0xFE, battRawOf 0xFE) = (4095, 14) := by decide

/-! ### Rescalers: the corners of R141 to R145 -/

theorem test_cvt_year : yearOf 0 = 2000 ∧ yearOf 24 = 2024 ∧ yearOf 63 = 2063 := by decide
theorem test_cvt_lat : (latFxOf 0).toInt = -324000000 ∧ latFxOf 324000000 = 0 ∧
    (latFxOf 1073741823).toInt = 749741823 := by decide
theorem test_cvt_lon : (lonFxOf 0).toInt = -648000000 ∧ lonFxOf 648000000 = 0 ∧
    (lonFxOf 2147483647).toInt = 1499483647 := by decide
theorem test_cvt_sst : (sstFxOf 0).toInt = -500 ∧ sstFxOf 500 = 0 ∧ (sstFxOf 4095).toInt = 3595 := by decide
theorem test_cvt_batt : battFxOf 0 = 10 ∧ battFxOf 3 = 13 ∧ battFxOf 15 = 25 := by decide
theorem test_cvt_exec : (outOf (exec .cvtLat (withRaw .none 487800000 0 0 0))).map (·.latFx) = some 163800000 ∧
    (outOf (exec .cvtBatt (withRaw .none 0 0 0 3))).map (·.battFx) = some 13 := by decide +kernel

/-! ### Renderers: F1 to F11 -/

theorem test_literal_hundredth : b64Literal 1 100 = 0x3F847AE147AE147B#64 := by decide +kernel
theorem test_f64_lat_stepwise : [0, 31053, 1073741823, 487800000].map (fun n => renderLat .stepwiseB64 (BitVec.ofNat 30 n)) =
    [some 0xC056800000000000, some 0xC0567F72ACA1FBB0, some 0x406A085F2BA9D1F6, some 0x4046C00000000000] := by
  decide +kernel
theorem test_f64_lat_rounded : [0, 31053, 1073741823, 487800000].map (fun n => renderLat .roundedB64 (BitVec.ofNat 30 n)) =
    [some 0xC056800000000000, some 0xC0567F72ACA1FBAF, some 0x406A085F2BA9D1F6, some 0x4046C00000000000] := by
  decide +kernel
theorem test_f64_lon_stepwise : [62106, 2147483647, 207900000, 648000000].map (fun n => renderLon .stepwiseB64 (BitVec.ofNat 31 n)) =
    [some 0xC0667F72ACA1FBB0, some 0x407A085F2BF462B4, some 0xC05E900000000000, some 0] := by decide +kernel
theorem test_f64_lon_rounded : [62106, 2147483647, 207900000, 648000000].map (fun n => renderLon .roundedB64 (BitVec.ofNat 31 n)) =
    [some 0xC0667F72ACA1FBAF, some 0x407A085F2BF462B4, some 0xC05E900000000000, some 0] := by decide +kernel
theorem test_f64_sst_stepwise : [4095, 56, 500, 2337].map (fun n => renderSst .stepwiseB64 (BitVec.ofNat 12 n)) =
    [some 0x4041F9999999999A, some 0xC011C28F5C28F5C2, some 0, some 0x40325EB851EB851F] := by decide +kernel
theorem test_f64_sst_rounded : [4095, 56, 500, 2337].map (fun n => renderSst .roundedB64 (BitVec.ofNat 12 n)) =
    [some 0x4041F9999999999A, some 0xC011C28F5C28F5C3, some 0, some 0x40325EB851EB851F] := by decide +kernel
theorem test_f64_batt : [0, 3, 15].map (fun n => renderBatt .stepwiseB64 (BitVec.ofNat 4 n)) =
      [some 0x4014000000000000, some 0x401A000000000000, some 0x4029000000000000] ∧
    [0, 3, 15].map (fun n => renderBatt .roundedB64 (BitVec.ofNat 4 n)) =
      [some 0x4014000000000000, some 0x401A000000000000, some 0x4029000000000000] := by decide +kernel
theorem test_f64_exec : (outOf (exec .f64Lat (withRaw .roundedB64 487800000 0 0 0))).map (·.latF64) =
    some (some 0x4046C00000000000) ∧ outOf (exec .f64Lat (withRaw .none 487800000 0 0 0)) = none := by decide +kernel

/-! ### The host -/

-- R193: a different request while one is outstanding.
theorem test_changed_request : (presented.present ⟨14, 0⟩).reqStable = false ∧
    presented.present ⟨14, e1⟩ = presented := by decide +kernel
-- R23, R193: absent lanes are not compared (log 27); one presented byte is.
theorem test_absent_lane_no_change :
    ((State.reset.present ⟨13, 0⟩).present ⟨13, 1⟩).reqStable = true ∧
    ((State.reset.present ⟨13, 0⟩).present ⟨13, 0x100⟩).reqStable = false := by decide +kernel
-- R197: a reset abandons the outstanding request.
theorem test_reset_abandons : presented.afterReset = State.reset := by decide
-- D5: a buffer of 20 bytes saturates.
theorem test_buffer_saturates : (Request.ofBuffer (List.replicate 20 0)).len = 15 := by decide

-- R30, R190: the binary64 ports of a block that has them show zero, of one that has none they are absent.
theorem test_ports_zero : (State.built .stepwiseB64).portFields.sstF64 = some 0 ∧
    (State.reset.respond (.err .truncatedInputError)).portFields.sstF64 = none := by decide
-- R51: the step of S3 leaves the request buffer as the host drove it.
theorem test_step_keeps_buffer : (match step presented with
    | .next t => t.buf == presented.buf && t.reqLen == 14
    | _ => false) = true := by decide +kernel

/-! ### Witnesses: for each statement with hypotheses, what meets them -/

theorem presented_inv : presented.Inv :=
  ⟨fun _ => rfl, presentBuffer_wf 14 e1, presentBuffer_offsets 14 e1, ⟨rfl, rfl, rfl, rfl, rfl, rfl⟩,
    fun _ h => nomatch h⟩

theorem witness_ResetClearsResponse : State.built .roundedB64 ∈
    [State.reset, State.built (working .roundedB64).fpRender, (working .roundedB64).afterReset] := by decide
theorem witness_FirstRequestNeedsNoBoot :
    State.reset.reqValid = false ∧ State.reset.fpRender = presented.fpRender := by decide
theorem witness_StepKeepsInvariant : presented.Inv ∧ ∃ t, step presented = .next t :=
  ⟨presented_inv, _, rfl⟩
theorem witness_PresentKeepsInvariant : State.reset.Inv ∧ State.reset.reqValid = false :=
  ⟨⟨fun _ => rfl, List.Pairwise.nil, rfl, ⟨rfl, rfl, rfl, rfl, rfl, rfl⟩, fun _ h => nomatch h⟩, rfl⟩
theorem witness_EveryStepAnswers : presented.reqValid = true ∧ State.reset.reqValid = false := by decide
theorem witness_StepRunsDecodedRequest : presented.reqValid = true ∧ presented.reqStable = true ∧
    decodeWord presented.requestWord = .decode 14 e1 := by decide +kernel
theorem witness_PresentedRequestIsRun : (Instr.decode 14 e1).wellFormed .none = true ∧
    (Instr.decode 0 0).wellFormed .roundedB64 = true := by decide
theorem witness_NoRequestNoChange : State.reset.reqValid = false := rfl
theorem witness_DisturbedRequestIsAnswered :
    (presented.present ⟨14, 0⟩).reqValid = true ∧ (presented.present ⟨14, 0⟩).reqStable = false := by decide +kernel
theorem witness_DecodeShortBufferIsTruncated : (0 : ReqLen).toNat < 14 ∧ (13 : ReqLen).toNat < 14 := by decide
theorem witness_DecodeLongBufferGivesRecordFields : 14 ≤ (14 : ReqLen).toNat ∧ 14 ≤ (15 : ReqLen).toNat := by decide
theorem witness_ResponseIgnoresHistory : State.reset.fpRender = presented.fpRender := rfl
theorem witness_TrailingBytesIgnored : 14 ≤ (List.replicate 14 (0xAA : Byte)).length := by decide
theorem witness_UnusedBitsIgnored : e1 ≠ (e1 ^^^ 0x3000000010000#112) ∧ ∀ i < 112, i ≠ 49 → i ≠ 48 → i ≠ 16 →
    e1.getLsbD i = (e1 ^^^ 0x3000000010000#112).getLsbD i := by decide +kernel
theorem witness_OutputsReadExactlyTheirBits : 14 ≤ (14 : ReqLen).toNat := by decide
theorem witness_FlagBitsAreIndependent :
    14 ≤ (14 : ReqLen).toNat ∧ 0x2000#112 ∈ [0x2000#112, 0x4000#112, 0x6000#112] := by decide
theorem witness_MemReadIsBigEndian : 12 + 1 ≤ presentedBytes 13 ∧ (13 : ReqLen).toNat < 13 + 1 ∧
    10 + 4 ≤ presentedBytes 15 ∧ 14 < 11 + 4 ∧ ¬ (15 : ReqLen).toNat < 11 + 4 := by decide
theorem witness_OperandLoadReadsRecord : 14 ≤ (14 : ReqLen).toNat ∧ (13 : ReqLen).toNat < 14 := by decide
theorem witness_EvaluationOrderIsInvisible : Instr.extSst ∈ datapathOps ∧ Instr.f64Lat ∈ datapathOps ∧
    (Instr.extSst, Instr.f64Lat) ∉ readsOutputOf ∧ (Instr.f64Lat, Instr.extSst) ∉ readsOutputOf := by decide
theorem witness_DecodeReadsHostBuffer : presented.Inv := presented_inv
theorem witness_RequestBufferNeverWritten : (∃ i t, exec i (working .none) = .next t) ∧
    ∃ t, step presented = .next t :=
  ⟨⟨.extYear, _, rfl⟩, _, rfl⟩
theorem witness_DatapathWritesOnlyOut : (∀ len data, Instr.extYear ≠ .decode len data) ∧
    ∃ t, exec .extYear (working .none) = .next t :=
  ⟨fun _ _ h => (nomatch h), _, rfl⟩
theorem witness_FixedPointIsExactFormula : 14 ≤ (15 : ReqLen).toNat := by decide
theorem witness_RescalersAreOneToOne : ∃ t, exec .cvtSst (withRaw .none 0 0 2337 0) = .next t ∧
    exec .cvtSst (withRaw .none 0 0 2337 9) = .next { t with out := { t.out with battRaw := 9 } } ∧
    t.out.sstFx = (1837 : BitVec 13) :=
  ⟨_, rfl, rfl, by decide⟩
theorem witness_OutputRanges : 14 ≤ (14 : ReqLen).toNat := by decide
theorem witness_RoundedRenderIsNearest : (working .roundedB64).fpRender = .roundedB64 := rfl
theorem witness_StepwiseRenderRoundsEachOperation : (working .stepwiseB64).fpRender = .stepwiseB64 := rfl
theorem witness_RenderedValuesAreOrdinary : 14 ≤ (14 : ReqLen).toNat ∧
    some 0xC056800000000000#64 ∈ [(recordFields .roundedB64 0).latF64, (recordFields .roundedB64 0).lonF64] := by
  decide +kernel
theorem witness_BatteryRenderingsAgree : (working .stepwiseB64).fpRender = .stepwiseB64 ∧
    (working .roundedB64).fpRender = .roundedB64 ∧
    (working .stepwiseB64).out.battRaw = (working .roundedB64).out.battRaw := ⟨rfl, rfl, rfl⟩
theorem witness_NoRenderingUnderNone : State.reset.fpRender = .none ∧ 14 ≤ (14 : ReqLen).toNat := by decide
theorem witness_DecodeOfEncodeIsSame : (Instr.decode 13 0x619EA8C0744CF30018C89AC0D200#112).wellFormed .none = true ∧
    encode (.decode 14 e1) = some 0x619EA8C0744CF30018C89AC0D243E#116 := by decide +kernel
theorem witness_RunAnswersEachRequest : State.reset.reqValid = false ∧ (working .roundedB64).reqValid = false := by decide
theorem witness_HostReadsResponse : 14 ≤ (14 : ReqLen).toNat ∧ (13 : ReqLen).toNat < 14 := by decide
theorem witness_InstancesAreIsolated : (System.mk .none presented [State.reset]).block 0 = some presented ∧
    (System.mk .none presented [State.reset]).block 1 = some State.reset := by decide
theorem witness_AnyInstanceServesAlike :
    (System.start .roundedB64 1).block 1 = some (State.built .roundedB64) ∧
    (State.built .roundedB64).reqValid = false := by decide

end Sys2Proof.Tests
end

section
/-! PROOFS. What DECODE computes from the bytes of its request, up to the successful response (R52, R53, R100
to R104). -/

namespace Sys2Proof.Machine

/-! ### Reading the request buffer -/

theorem readBytes_presentBuffer (len : ReqLen) (data : Record) (n addr : Nat)
    (h : addr + n ≤ presentedBytes len) :
    readBytes (presentBuffer len data) addr n = some ((List.range' addr n).map (lane data)) := by
  induction n generalizing addr with
  | zero => rfl
  | succ n ih =>
    have here : addr < presentedBytes len := by omega
    have rest := ih (addr + 1) (by omega)
    simp [readBytes, readByte_presentBuffer, here, rest, List.range'_succ]

theorem bigEndian_concat (bytes : List Byte) (b : Byte) :
    bigEndian (bytes ++ [b]) = bigEndian bytes * 256 + b.toNat := by
  simp [bigEndian]

/-- Consecutive lanes, read big-endian, are the slice of the record that they cover (R8, R52). -/
theorem bigEndian_lanes (data : Record) (addr n : Nat) (h : addr + n ≤ 14) :
    bigEndian ((List.range' addr n).map (lane data)) =
      (data.extractLsb' (8 * (14 - addr - n)) (8 * n)).toNat := by
  induction n with
  | zero => simp [bigEndian]
  | succ n ih =>
    have shift : 8 * (14 - addr - n) = 8 * (14 - addr - (n + 1)) + 8 := by omega
    have last : 104 - 8 * (addr + n) = 8 * (14 - addr - (n + 1)) := by omega
    rw [List.range'_1_concat, List.map_append, List.map_singleton, bigEndian_concat, ih (by omega), lane, shift, last]
    generalize 8 * (14 - addr - (n + 1)) = lo
    simp only [BitVec.extractLsb'_toNat, Nat.shiftRight_add, Nat.shiftRight_eq_div_pow _ 8]
    generalize data.toNat >>> lo = x
    rw [show 8 * (n + 1) = 8 + 8 * n by ring, pow_add, Nat.mod_mul]
    omega

/-- A read that stays inside the presented bytes gives the slice of the record that it covers (R53). -/
theorem memRead_presentBuffer (len : ReqLen) (data : Record) (addr n : Nat)
    (h : addr + n ≤ presentedBytes len) :
    memRead (presentBuffer len data) addr n =
      some (data.extractLsb' (8 * (14 - addr - n)) (8 * n)).toNat := by
  have hle := presentedBytes_le len
  rw [memRead, readBytes_presentBuffer len data n addr h, Option.map_some, bigEndian_lanes data addr n (by omega)]

/-- The operand load of a request of 14 bytes or more succeeds and takes the five slices of R55. -/
theorem loadOperands_of_long {len : ReqLen} (h : 14 ≤ len.toNat) (data : Record) (s : State) :
    loadOperands (presentBuffer len data) s =
      some (s.setOperands (data.extractLsb' 80 32) (data.extractLsb' 48 32) (data.extractLsb' 16 32)
        (data.extractLsb' 8 8) (data.extractLsb' 0 8)) := by
  have hp := presentedBytes_of_long h
  simp [loadOperands, memRead_presentBuffer, hp, -BitVec.extractLsb'_toNat]

/-! ### The datapath -/

/-- What the datapath operations of one transaction leave in `out`, from the operand words alone (R102, R103). -/
def fieldsOfOperands (fp : FpRender) (t l1 l2 : Word) (f n : Byte) : DecodedTelemetry where
  year := yearOf (yearRawOf t)
  yearRaw := yearRawOf t
  month := monthOf t
  day := dayOf t
  secs := secsOf t
  latRaw := latRawOf l1
  latFx := latFxOf (latRawOf l1)
  lonRaw := lonRawOf l2
  lonFx := lonFxOf (lonRawOf l2)
  submerged := submergedOf f
  gpsFlag := gpsFlagOf f
  sstRaw := sstRawOf f n
  sstFx := sstFxOf (sstRawOf f n)
  battRaw := battRawOf n
  battFx := battFxOf (battRawOf n)
  latF64 := renderLat fp (latRawOf l1)
  lonF64 := renderLon fp (lonRawOf l2)
  sstF64 := renderSst fp (sstRawOf f n)
  battF64 := renderBatt fp (battRawOf n)

/-- The extractors and rescalers write every field but the binary64 ones, which only the renderers write. -/
theorem runAll_fixedOps (s : State) (hout : s.out = .blank) :
    runAll fixedOps s =
      .next (s.setOut (fieldsOfOperands .none s.wordT s.wordL1 s.wordL2 s.byteF s.byteN)) := by
  cases s
  cases hout
  rfl

/-- The renderers of the block's own FP_RENDER, run on fields without binary64 values, write the rendering of each
raw value, which under NONE is no value (R148). -/
theorem runAll_renderOps (s : State)
    (hout : s.out = { s.out with latF64 := none, lonF64 := none, sstF64 := none, battF64 := none }) :
    runAll (renderOps s.fpRender) s = .next (s.setOut { s.out with
      latF64 := renderLat s.fpRender s.out.latRaw
      lonF64 := renderLon s.fpRender s.out.lonRaw
      sstF64 := renderSst s.fpRender s.out.sstRaw
      battF64 := renderBatt s.fpRender s.out.battRaw }) := by
  cases hfp : s.fpRender with
  | none => exact congrArg (fun d => Host.Outcome.next (s.setOut d)) hout
  | stepwiseB64 | roundedB64 =>
    simp [renderOps, runAll_cons, execF64Lat, execF64Lon, execF64Sst, execF64Batt, hfp, renderLat, renderLon,
      renderSst, renderBatt]

theorem runAll_datapath (s : State) (hout : s.out = .blank) :
    runAll (fixedOps ++ renderOps s.fpRender) s =
      .next (s.setOut (fieldsOfOperands s.fpRender s.wordT s.wordL1 s.wordL2 s.byteF s.byteN)) := by
  rw [runAll_append, runAll_fixedOps s hout, andThen_next]
  exact runAll_renderOps (s.setOut (fieldsOfOperands .none s.wordT s.wordL1 s.wordL2 s.byteF s.byteN)) rfl

/-! ### DECODE of a long buffer -/

/-- A request of 14 bytes or more is answered with what the datapath makes of its five operand words. -/
theorem exec_decode_of_long {len : ReqLen} (h : 14 ≤ len.toNat) (data : Record) (s : State) :
    exec (.decode len data) s = .next (s.respond (.ok (fieldsOfOperands s.fpRender (data.extractLsb' 80 32)
      (data.extractLsb' 48 32) (data.extractLsb' 16 32) (data.extractLsb' 8 8) (data.extractLsb' 0 8)))) := by
  have notShort : lengthShort len = false := by simpa [lengthShort] using h
  calc exec (.decode len data) s
      = decodeRecord (presentBuffer len data) s.clearOut := by simp [exec, execDecode, notShort]
    _ = _ := by
      rw [decodeRecord, loadOperands_of_long h]
      dsimp only
      rw [← State.setOperands_fpRender s.clearOut, runAll_datapath _ rfl, andThen_next, respondOk_eq]
      simp

/-! ### Rescalers as exact integers -/

/-- Subtracting a constant that `w` bits hold, in one bit more than the operand's `w`, never overflows (R140). -/
theorem toInt_setWidth_succ_sub {w c : Nat} (hc : c < 2 ^ w) (raw : BitVec w) :
    (raw.setWidth (w + 1) - BitVec.ofNat (w + 1) c).toInt = (raw.toNat : ℤ) - c := by
  have hraw := raw.isLt
  have hpow : 2 ^ (w + 1) = 2 * 2 ^ w := by ring
  rw [BitVec.toInt_eq_toNat_cond, BitVec.toNat_sub, BitVec.toNat_setWidth, BitVec.toNat_ofNat, hpow,
    Nat.mod_eq_of_lt (a := raw.toNat) (by omega), Nat.mod_eq_of_lt (a := c) (by omega)]
  generalize 2 ^ w = p at *
  rcases Nat.lt_or_ge raw.toNat c with hlt | hge
  · rw [Nat.mod_eq_of_lt (by omega), if_neg (by omega)]
    omega
  · rw [Nat.mod_eq_sub_mod (by omega), Nat.mod_eq_of_lt (by omega), if_pos (by omega)]
    omega

/-- R142. -/
theorem latFxOf_toInt (raw : BitVec 30) : (latFxOf raw).toInt = (raw.toNat : ℤ) - 324000000 :=
  toInt_setWidth_succ_sub (by norm_num) raw

/-- R143. -/
theorem lonFxOf_toInt (raw : BitVec 31) : (lonFxOf raw).toInt = (raw.toNat : ℤ) - 648000000 :=
  toInt_setWidth_succ_sub (by norm_num) raw

/-- R144. -/
theorem sstFxOf_toInt (raw : BitVec 12) : (sstFxOf raw).toInt = (raw.toNat : ℤ) - 500 :=
  toInt_setWidth_succ_sub (by norm_num) raw

/-- R145. -/
theorem battFxOf_toNat (raw : BitVec 4) : (battFxOf raw).toNat = raw.toNat + 10 := by
  unfold battFxOf
  bv_omega

/-! ### The source's formulas over exact rationals -/

theorem latFxOf_rat (raw : BitVec 30) : ((latFxOf raw).toInt : ℚ) / 3600000 = (raw.toNat : ℚ) / 3600000 - 90 := by
  rw [latFxOf_toInt]
  push_cast
  ring

theorem lonFxOf_rat (raw : BitVec 31) : ((lonFxOf raw).toInt : ℚ) / 3600000 = (raw.toNat : ℚ) / 3600000 - 180 := by
  rw [lonFxOf_toInt]
  push_cast
  ring

theorem sstFxOf_rat (raw : BitVec 12) : ((sstFxOf raw).toInt : ℚ) / 100 = (raw.toNat : ℚ) * (1 / 100) - 5 := by
  rw [sstFxOf_toInt]
  push_cast
  ring

theorem battFxOf_rat (raw : BitVec 4) : ((battFxOf raw).toNat : ℚ) / 2 = (raw.toNat : ℚ) / 2 + 5 := by
  rw [battFxOf_toNat]
  push_cast
  ring

/-- Settles O33: the response of a long DECODE holds each rescaler's output beside the raw value it came from, and
each rescaler is its formula over the rationals. -/
theorem fixedPointIsExactFormula : Obligations.FixedPointIsExactFormula := by
  intro s len data hlong
  exact ⟨_, _, exec_decode_of_long hlong data s, rfl,
    latFxOf_rat _, lonFxOf_rat _, sstFxOf_rat _, battFxOf_rat _⟩

end Sys2Proof.Machine
end

section
/-! PROOFS. The request from the host's bytes to the word that the step reads, and back (R20 to R23, R50, R83). -/

namespace Sys2Proof.Machine

/-! ### Lanes of the data port -/

/-- Dividing the bytes after byte `b` away leaves it as the last digit (R52). -/
theorem bigEndian_digit (bytes : List Byte) (b : Nat) (h : b < bytes.length) :
    bigEndian bytes / 256 ^ (bytes.length - 1 - b) % 256 = (bytes.getD b 0).toNat := by
  induction bytes using List.reverseRecOn with
  | nil => simp at h
  | append_singleton bytes last ih =>
    have hlast := last.isLt
    rw [bigEndian_concat, List.length_append, List.length_singleton, Nat.add_sub_cancel]
    rcases Nat.lt_or_ge b bytes.length with hb | hb
    · have hexp : bytes.length - b = bytes.length - 1 - b + 1 := by omega
      have hdiv : (bigEndian bytes * 256 + last.toNat) / 256 = bigEndian bytes := by omega
      rw [hexp, pow_succ', ← Nat.div_div_eq_div_mul, hdiv, ih hb, List.getD_append _ _ _ _ hb]
    · rw [List.length_append, List.length_singleton] at h
      obtain rfl : b = bytes.length := by omega
      simp
      omega

/-- Byte `b` of a buffer is on lane `b` of the data port, and a lane past the buffer is zero (R22, R23). -/
theorem lane_packLanes (bytes : List Byte) (b : Nat) (h : b < 14) :
    lane (packLanes bytes) b = bytes.getD b 0 := by
  have digit := bigEndian_digit ((List.range 14).map fun b => bytes.getD b 0) b (by simpa using h)
  have below : 2 ^ (104 - 8 * b) = 256 ^ (13 - b) := by
    rw [show 104 - 8 * b = 8 * (13 - b) by omega, pow_mul]
    rfl
  have all : 2 ^ 112 = 256 ^ (13 - b) * (2 ^ 8 * 256 ^ b) := by
    rw [show 2 ^ 112 = 2 ^ 8 * 256 ^ 13 by norm_num, ← Nat.sub_add_cancel (show b ≤ 13 by omega), pow_add,
      Nat.add_sub_cancel]
    ring
  apply BitVec.eq_of_toNat_eq
  rw [lane, packLanes, BitVec.extractLsb'_toNat, BitVec.toNat_ofNat, Nat.shiftRight_eq_div_pow, below, all,
    Nat.mod_mul_right_div_self, Nat.mod_mul_right_mod]
  simpa [h] using digit

/-- A data port is what its own lanes, in order, make of it (R8, R22). -/
theorem packLanes_of_lanes (bytes : List Byte) (data : Record) (h : ∀ b < 14, bytes.getD b 0 = lane data b) :
    packLanes bytes = data := by
  have lanes : ((List.range 14).map fun b => bytes.getD b 0) = (List.range' 0 14).map (lane data) := by
    rw [← List.range_eq_range']
    exact List.map_congr_left fun b hb => h b (List.mem_range.1 hb)
  rw [packLanes, lanes, bigEndian_lanes data 0 14 (by omega)]
  simp

/-- The host's duty of R23: a lane at or past the length holds zero. -/
theorem lane_eq_zero_of_absent {len : ReqLen} {data : Record} (h : absentLanesZero len data = true) {b : Nat}
    (hb : len.toNat ≤ b) (hb' : b < 14) : lane data b = 0 := by
  have hdvd : 2 ^ (8 * (14 - len.toNat)) ∣ data.toNat := Nat.dvd_of_mod_eq_zero (by simpa [absentLanesZero] using h)
  have hbyte : 2 ^ (104 - 8 * b) * 2 ^ 8 ∣ data.toNat := by
    rw [← pow_add]
    exact (pow_dvd_pow 2 (by omega)).trans hdvd
  apply BitVec.eq_of_toNat_eq
  rw [lane, BitVec.extractLsb'_toNat, Nat.shiftRight_eq_div_pow]
  exact Nat.mod_eq_zero_of_dvd (Nat.dvd_div_of_mul_dvd hbyte)

/-! ### A request as a buffer of bytes -/

theorem saturateLen_toNat (len : ReqLen) : saturateLen len.toNat = len := by
  have hlt := len.isLt
  apply BitVec.eq_of_toNat_eq
  simp [saturateLen]
  omega

theorem bufferOf_getD (len : ReqLen) (data : Record) {b : Nat} (hb : b < 14) :
    (bufferOf len data).getD b 0 = if b < len.toNat then lane data b else 0 := by
  by_cases h : b < len.toNat <;> simp [bufferOf, hb, h]

/-- A request whose host keeps R23 comes back from its buffer. -/
theorem decodeBuffer_bufferOf {len : ReqLen} {data : Record} (h : absentLanesZero len data = true) :
    decodeBuffer (bufferOf len data) = .decode len data := by
  have hdata : packLanes (bufferOf len data) = data := packLanes_of_lanes _ _ fun b hb => by
    rw [bufferOf_getD len data hb]
    split
    · rfl
    · next hlen => exact (lane_eq_zero_of_absent h (by omega) hb).symm
  rw [decodeBuffer, hdata]
  simp [bufferOf, saturateLen_toNat]

/-! ### A request as one word -/

@[simp] theorem wordLen_append (data : Record) (len : ReqLen) : wordLen (data ++ len) = len :=
  BitVec.extractLsb'_append_eq_right

@[simp] theorem wordData_append (data : Record) (len : ReqLen) : wordData (data ++ len) = data :=
  BitVec.extractLsb'_append_eq_left

/-- The two ports are all of a request word. -/
theorem wordData_append_wordLen (w : ReqWord) : wordData w ++ wordLen w = w := by
  have ports : wordData w ++ wordLen w = w.extractLsb' 0 (112 + 4) :=
    BitVec.extractLsb'_append_extractLsb'_eq_extractLsb' (start₁ := 0) (len₁ := 4) rfl
  exact ports.trans BitVec.extractLsb'_eq_self

theorem decodeTableWord_toNat (w : ReqWord) : decodeTableWord 116 w.toNat = some (decodeWord w) := by
  rw [decodeTableWord, tableWord, Nat.mod_eq_of_lt w.isLt, BitVec.ofNat_toNat, BitVec.setWidth_eq]

/-- Only a DECODE has a word, the one made of its two ports (R80, R83). -/
theorem encode_eq_some {i : Instr} {w : ReqWord} (h : encode i = some w) :
    ∃ len data, i = .decode len data ∧ w = data ++ len := by
  cases i with
  | decode len data => exact ⟨len, data, rfl, (Option.some.inj h).symm⟩
  | _ => cases h

theorem decodeWord_encode {i : Instr} {w : ReqWord} (h : encode i = some w) : decodeWord w = i := by
  obtain ⟨len, data, rfl, rfl⟩ := encode_eq_some h
  rw [decodeWord, wordLen_append, wordData_append]

/-- Settles O41: a buffer comes back lane by lane, and a word is no more and no less than its two ports. -/
theorem decodeOfEncodeIsSame : Obligations.DecodeOfEncodeIsSame := by
  refine ⟨fun fp len data hwf => decodeBuffer_bufferOf hwf, fun i w h => ?_, fun w => ?_⟩
  · rw [decodeTableWord_toNat, decodeWord_encode h]
  · exact congrArg some (wordData_append_wordLen w)

/-- Settles O42, by evaluation of the three written requests. -/
theorem decodeOfWrittenWords : Obligations.DecodeOfWrittenWords := by
  unfold Obligations.DecodeOfWrittenWords
  decide

/-! ### The request on the port -/

theorem reqData_lane (s : State) {b : Nat} (hb : b < 14) : lane s.reqData b = (readByte s.buf b).getD 0 := by
  rw [State.reqData, lane_packLanes _ _ hb]
  simp [hb]

/-- A list of cells with distinct offsets holds at each offset what a read there gives. -/
theorem map_readByte_of_nodup {m : Memory} (h : (m.map Prod.fst).Nodup) :
    (m.map Prod.fst).map (fun a => (a, (readByte m a).getD 0)) = m := by
  induction m with
  | nil => rfl
  | cons cell rest ih =>
    obtain ⟨hfresh, hrest⟩ := List.nodup_cons.1 h
    have skip : ∀ a ∈ rest.map Prod.fst, readByte (cell :: rest) a = readByte rest a := fun a ha =>
      if_neg fun heq : cell.1 = a => hfresh (heq ▸ ha)
    rw [List.map_cons, List.map_cons, List.map_congr_left fun a ha => by rw [skip a ha], ih hrest]
    simp [readByte]

/-- The ports present the very buffer behind them, wherever that buffer lists the presented bytes (R22, R50). -/
theorem presentBuffer_reqData {s : State} (h : s.buf.map Prod.fst = List.range (presentedBytes s.reqLen)) :
    presentBuffer s.reqLen s.reqData = s.buf := by
  have hle := presentedBytes_le s.reqLen
  calc presentBuffer s.reqLen s.reqData
      = (s.buf.map Prod.fst).map fun b => (b, (readByte s.buf b).getD 0) := by
        rw [presentBuffer, h]
        refine List.map_congr_left fun b hb => ?_
        rw [reqData_lane s (by have := List.mem_range.1 hb; omega)]
    _ = s.buf := map_readByte_of_nodup (h ▸ List.nodup_range)

/-- What the step reads from the port is a DECODE of the two ports (R70). -/
theorem fetch_eq (s : State) : fetch s = .decode s.reqLen s.reqData := by
  simp [fetch, decodeWord, State.requestWord]

/-- The data port of a request whose host keeps R23 shows that request. -/
theorem latch_reqData {len : ReqLen} {data : Record} (h : absentLanesZero len data = true) (s : State) :
    (s.latch len data).reqData = data := by
  refine packLanes_of_lanes _ _ fun b hb => ?_
  have read : ((List.range 14).map fun b => (readByte (presentBuffer len data) b).getD 0).getD b 0 =
      (readByte (presentBuffer len data) b).getD 0 := by simp [hb]
  rw [State.latch_buf, read, readByte_presentBuffer]
  split
  · rfl
  · next habsent =>
    exact (lane_eq_zero_of_absent h (by unfold presentedBytes at habsent; omega) hb).symm

/-- DECODE sees a data port only through the buffer that it presents (R23). -/
theorem exec_decode_congr {len : ReqLen} {data data' : Record}
    (h : presentBuffer len data = presentBuffer len data') (s : State) :
    exec (.decode len data) s = exec (.decode len data') s := by
  simp only [exec, execDecode, h]

/-- An outstanding request that the host held stable runs as the DECODE of the two ports (R20, R108). -/
theorem step_of_stable {s : State} (hvalid : s.reqValid = true) (hstable : s.reqStable = true) :
    step s = exec (fetch s) s := by
  rw [step, if_pos hvalid, if_pos hstable]

/-- Settles O22: the word on the port is the two ports, and the invariant gives the buffer's offsets. -/
theorem decodeReadsHostBuffer : Obligations.DecodeReadsHostBuffer := by
  intro s hinv
  rw [State.requestWord, wordLen_append, wordData_append]
  exact presentBuffer_reqData hinv.bufferOffsets

/-- Settles O8: `fetch` is the decoder applied to the word on the port. -/
theorem stepRunsDecodedRequest : Obligations.StepRunsDecodedRequest := by
  rintro s i hvalid hstable rfl
  exact step_of_stable hvalid hstable

/-- Settles O9: a driven absent lane is lost on the way to the port, but the buffer that the port presents is the
same one, and DECODE reads nothing else. -/
theorem presentedRequestIsRun : Obligations.PresentedRequestIsRun := by
  intro s len data
  refine ⟨fun fp hwf => ?_, ?_⟩
  · have hdata := latch_reqData hwf s
    exact ⟨by rw [fetch_eq, hdata, State.latch_reqLen], hdata⟩
  · rw [step_of_stable rfl rfl, fetch_eq]
    exact exec_decode_congr (presentBuffer_reqData (s := s.latch len data) (presentBuffer_offsets len data)) _

/-! ### The host's move -/

/-- All that presenting a request can do, outstanding or not: it writes the port, and nothing else. -/
theorem present_eq (s : State) (r : Request) : ∃ stable, s.present r =
    { s with reqValid := true, reqStable := stable, reqLen := r.len, buf := presentBuffer r.len r.data } := by
  by_cases hvalid : s.reqValid = true
  · by_cases hsame : s.reqLen = r.len ∧ s.buf = presentBuffer r.len r.data
    · refine ⟨s.reqStable, ?_⟩
      rw [State.present, if_pos hvalid, if_pos hsame]
      rcases s with ⟨⟩
      obtain ⟨rfl, rfl⟩ := hsame
      cases hvalid
      rfl
    · exact ⟨false, by rw [State.present, if_pos hvalid, if_neg hsame]; rfl⟩
  · exact ⟨true, by rw [State.present, if_neg hvalid]; rfl⟩

/-- With no request outstanding, presenting one puts it on the port (R20). -/
theorem present_of_idle {s : State} (h : s.reqValid = false) (r : Request) : s.present r = s.latch r.len r.data := by
  simp [State.present, h]

/-- Presenting the request that is on the port already changes nothing (log 21). -/
theorem present_latch (s : State) (r : Request) : (s.latch r.len r.data).present r = s.latch r.len r.data := by
  simp [State.present]

/-- Settles O6, by the whole effect of presenting a request. -/
theorem hostMoveWritesOnlyPort : Obligations.HostMoveWritesOnlyPort := by
  rintro s ⟨r⟩
  exact ⟨r, rfl, present_eq s r⟩

/-- Settles O45: the views of the response read `rsp` and FP_RENDER, which the host's move leaves. -/
theorem portsKeepResponseWhileOutstanding : Obligations.PortsKeepResponseWhileOutstanding := by
  intro s r
  obtain ⟨stable, h⟩ := present_eq s r
  rw [h]
  exact ⟨rfl, rfl, rfl, by simp [State.rspValid]⟩

/-- A request put on the port of a block that meets the invariant is held stable and presents its own bytes. -/
theorem State.Inv.latch {s : State} (h : s.Inv) (len : ReqLen) (data : Record) : (s.latch len data).Inv where
  stable _ := rfl
  bufferCanonical := presentBuffer_wf len data
  bufferOffsets := presentBuffer_offsets len data
  quiet := h.quiet
  responseSound := h.responseSound

/-- Settles O5: from an idle state, presenting a request is the latch. -/
theorem presentKeepsInvariant : Obligations.PresentKeepsInvariant := by
  intro s r hinv hidle
  rw [present_of_idle hidle]
  exact ⟨hinv.latch r.len r.data, rfl, by simp [State.rspValid], present_latch s r⟩

end Sys2Proof.Machine
end

section
/-! PROOFS. What DECODE answers to every request, and what its parts and the step keep (R25, R31, R32, R77, R101,
R146). -/

namespace Sys2Proof.Machine

/-! ### The operand load -/

/-- A read that goes past the presented bytes gives nothing (R53). -/
theorem readBytes_presentBuffer_absent (len : ReqLen) (data : Record) {n addr : Nat} (hn : 0 < n)
    (h : presentedBytes len < addr + n) : readBytes (presentBuffer len data) addr n = none := by
  induction n generalizing addr with
  | zero => omega
  | succ n ih =>
    rw [readBytes, readByte_presentBuffer]
    by_cases here : addr < presentedBytes len
    · rw [ih (by omega) (by omega)]
      simp
    · simp [here]

theorem memRead_presentBuffer_absent (len : ReqLen) (data : Record) {addr n : Nat} (hn : 0 < n)
    (h : presentedBytes len < addr + n) : memRead (presentBuffer len data) addr n = none := by
  rw [memRead, readBytes_presentBuffer_absent len data hn h, Option.map_none]

/-- Byte 13, which the load reads last, is absent from every short buffer (R25, R53). -/
theorem loadOperands_of_short {len : ReqLen} (h : len.toNat < 14) (data : Record) (s : State) :
    loadOperands (presentBuffer len data) s = none := by
  refine Option.eq_none_iff_forall_ne_some.2 fun s' hs' => ?_
  obtain ⟨t, l1, l2, f, n, -, -, -, -, hn, -⟩ := loadOperands_some hs'
  rw [memRead_presentBuffer_absent len data (by omega) (by unfold presentedBytes; omega)] at hn
  cases hn

/-- Settles O21, by the load of a long and of a short buffer. -/
theorem operandLoadReadsRecord : Obligations.OperandLoadReadsRecord :=
  fun s _ data => ⟨fun hlong => loadOperands_of_long hlong data s, fun hshort => loadOperands_of_short hshort data s⟩

/-! ### The datapath operations -/

/-- Every operation but DECODE ends, where it goes on, in a write of `out`. -/
theorem exec_datapath {i : Instr} (hi : ∀ len data, i ≠ .decode len data) {s t : State} (h : exec i s = .next t) :
    ∃ d, t = s.setOut d := by
  cases i with
  | decode len data => exact absurd rfl (hi len data)
  | f64Lat | f64Lon | f64Sst | f64Batt =>
    simp only [exec, execF64Lat, execF64Lon, execF64Sst, execF64Batt] at h
    split at h
    · cases h
    · cases h
      exact ⟨_, rfl⟩
  | _ =>
    cases h
    exact ⟨_, rfl⟩

/-- Settles O30: a write of `out` leaves every other field, the buffer among them. -/
theorem datapathWritesOnlyOut : Obligations.DatapathWritesOnlyOut := by
  intro i s t hi h
  obtain ⟨d, rfl⟩ := exec_datapath hi h
  exact ⟨rfl, fun _ => rfl⟩

/-! ### Extractors and rescalers as record bits and numbers -/

/-- A shift and a mask of `n` ones take `n` bits out of a word (R9, R120). -/
theorem shift_and_mask {w : Nat} (v mask : BitVec w) (lo n : Nat) (hmask : mask.toNat = 2 ^ n - 1) :
    ((v >>> lo) &&& mask).setWidth n = v.extractLsb' lo n := by
  apply BitVec.eq_of_toNat_eq
  rw [BitVec.toNat_setWidth, BitVec.toNat_and, hmask, BitVec.toNat_ushiftRight, Nat.and_two_pow_sub_one_eq_mod,
    Nat.mod_mod, BitVec.extractLsb'_toNat]

theorem extractLsb'_extractLsb' {w : Nat} (v : BitVec w) (lo n lo' n' : Nat) (h : lo' + n' ≤ n) :
    (v.extractLsb' lo n).extractLsb' lo' n' = v.extractLsb' (lo + lo') n' := by
  ext i hi
  simp only [BitVec.getElem_extractLsb', BitVec.getLsbD_extractLsb', show lo' + i < n by omega, decide_true,
    Bool.true_and, Nat.add_assoc]

theorem yearRawOf_eq (t : Word) : yearRawOf t = slice t 31 26 := shift_and_mask t _ 26 6 rfl

theorem monthOf_eq (t : Word) : monthOf t = slice t 25 22 := shift_and_mask t _ 22 4 rfl

theorem dayOf_eq (t : Word) : dayOf t = slice t 21 17 := shift_and_mask t _ 17 5 rfl

theorem secsOf_eq (t : Word) : secsOf t = slice t 16 0 := shift_and_mask t _ 0 17 rfl

theorem latRawOf_eq (l1 : Word) : latRawOf l1 = slice l1 31 2 := BitVec.setWidth_ushiftRight_eq_extractLsb

theorem lonRawOf_eq (l2 : Word) : lonRawOf l2 = slice l2 31 1 := shift_and_mask l2 _ 1 31 rfl

theorem submergedOf_eq (f : Byte) : submergedOf f = f.getLsbD 7 := by
  revert f
  decide

theorem gpsFlagOf_eq (f : Byte) : gpsFlagOf f = slice f 6 5 := shift_and_mask f _ 5 2 rfl

theorem battRawOf_eq (n : Byte) : battRawOf n = slice n 3 0 := shift_and_mask n _ 0 4 rfl

/-- The shift left and the OR of R129 put the bits of F in front of those of N. -/
theorem sstRawOf_eq (f n : Byte) : sstRawOf f n = slice f 4 0 ++ slice n 7 1 := by
  have high : (f &&& 0x1F#8).setWidth 12 = (slice f 4 0).setWidth 12 := by
    apply BitVec.eq_of_toNat_eq
    simp [slice, Nat.and_two_pow_sub_one_eq_mod _ 5]
    omega
  have low : (n >>> 1).setWidth 12 = (slice n 7 1).setWidth 12 := by
    have hn := n.isLt
    apply BitVec.eq_of_toNat_eq
    simp [slice, Nat.shiftRight_eq_div_pow]
    omega
  have append : slice f 4 0 ++ slice n 7 1 = ((slice f 4 0).setWidth 12 <<< 7) ||| (slice n 7 1).setWidth 12 :=
    (BitVec.setWidth_eq _).symm.trans BitVec.setWidth_append_eq_shiftLeft_setWidth_or
  rw [append, sstRawOf, high, low]

theorem sstRawOf_toNat (f n : Byte) : (sstRawOf f n).toNat = f.toNat % 32 * 128 + n.toNat / 2 := by
  have hn := n.isLt
  have high : (slice f 4 0).toNat = f.toNat % 32 := by rw [slice, BitVec.extractLsb'_toNat]; rfl
  have low : (slice n 7 1).toNat = n.toNat / 2 % 128 := by
    rw [slice, BitVec.extractLsb'_toNat, Nat.shiftRight_eq_div_pow]
  calc (sstRawOf f n).toNat
      = (slice f 4 0 ++ slice n 7 1).toNat := by rw [sstRawOf_eq]
    _ = (slice f 4 0).toNat * 2 ^ 7 + (slice n 7 1).toNat := by
      rw [BitVec.toNat_append, ← Nat.shiftLeft_add_eq_or_of_lt (slice n 7 1).isLt, Nat.shiftLeft_eq]
    _ = f.toNat % 32 * 128 + n.toNat / 2 := by omega

theorem battRawOf_toNat (n : Byte) : (battRawOf n).toNat = n.toNat % 16 := by
  rw [battRawOf_eq, slice, BitVec.extractLsb'_toNat]
  rfl

/-- `sstRaw` and `batteryRaw` share N[3:1] (R77). -/
theorem sstRaw_batteryRaw_share (f n : Byte) : (sstRawOf f n).toNat % 8 = (battRawOf n).toNat / 2 := by
  rw [sstRawOf_toNat, battRawOf_toNat]
  omega

theorem yearOf_toNat (raw : BitVec 6) : (yearOf raw).toNat = 2000 + raw.toNat := by
  unfold yearOf
  bv_omega

theorem yearOf_eq_ofNat (raw : BitVec 6) : yearOf raw = BitVec.ofNat 12 (2000 + raw.toNat) := by
  rw [← yearOf_toNat, BitVec.ofNat_toNat, BitVec.setWidth_eq]

theorem battFxOf_eq_ofNat (raw : BitVec 4) : battFxOf raw = BitVec.ofNat 5 (raw.toNat + 10) := by
  rw [← battFxOf_toNat, BitVec.ofNat_toNat, BitVec.setWidth_eq]

theorem latFxOf_eq_ofInt (raw : BitVec 30) : latFxOf raw = BitVec.ofInt 31 (raw.toNat - 324000000) := by
  rw [← latFxOf_toInt, BitVec.ofInt_toInt]

theorem lonFxOf_eq_ofInt (raw : BitVec 31) : lonFxOf raw = BitVec.ofInt 32 (raw.toNat - 648000000) := by
  rw [← lonFxOf_toInt, BitVec.ofInt_toInt]

theorem sstFxOf_eq_ofInt (raw : BitVec 12) : sstFxOf raw = BitVec.ofInt 13 (raw.toNat - 500) := by
  rw [← sstFxOf_toInt, BitVec.ofInt_toInt]

/-! ### The ranges of R146 -/

theorem yearOf_range (raw : BitVec 6) : 2000 ≤ (yearOf raw).toNat ∧ (yearOf raw).toNat ≤ 2063 := by
  have hraw := raw.isLt
  rw [yearOf_toNat]
  omega

theorem latFxOf_range (raw : BitVec 30) : -324000000 ≤ (latFxOf raw).toInt ∧ (latFxOf raw).toInt ≤ 749741823 := by
  have hraw := raw.isLt
  rw [latFxOf_toInt]
  omega

theorem lonFxOf_range (raw : BitVec 31) : -648000000 ≤ (lonFxOf raw).toInt ∧ (lonFxOf raw).toInt ≤ 1499483647 := by
  have hraw := raw.isLt
  rw [lonFxOf_toInt]
  omega

theorem sstFxOf_range (raw : BitVec 12) : -500 ≤ (sstFxOf raw).toInt ∧ (sstFxOf raw).toInt ≤ 3595 := by
  have hraw := raw.isLt
  rw [sstFxOf_toInt]
  omega

theorem battFxOf_range (raw : BitVec 4) : 10 ≤ (battFxOf raw).toNat ∧ (battFxOf raw).toNat ≤ 25 := by
  have hraw := raw.isLt
  rw [battFxOf_toNat]
  omega

/-! ### What DECODE answers -/

theorem exec_decode_of_short {len : ReqLen} (h : len.toNat < 14) (data : Record) (s : State) :
    exec (.decode len data) s = .next (s.respond (.err .truncatedInputError)) := by
  have short : lengthShort len = true := by simpa [lengthShort] using h
  rw [← raiseTruncated_eq]
  simp [exec, execDecode, short]

/-- The extractors read, from the operand words, the record bits that the field table of R71 names. -/
theorem fieldsOfOperands_record (fp : FpRender) (data : Record) :
    fieldsOfOperands fp (data.extractLsb' 80 32) (data.extractLsb' 48 32) (data.extractLsb' 16 32)
      (data.extractLsb' 8 8) (data.extractLsb' 0 8) = recordFields fp data := by
  have year : yearRawOf (data.extractLsb' 80 32) = slice data 111 106 :=
    (yearRawOf_eq _).trans (extractLsb'_extractLsb' data 80 32 26 6 (by omega))
  have month : monthOf (data.extractLsb' 80 32) = slice data 105 102 :=
    (monthOf_eq _).trans (extractLsb'_extractLsb' data 80 32 22 4 (by omega))
  have day : dayOf (data.extractLsb' 80 32) = slice data 101 97 :=
    (dayOf_eq _).trans (extractLsb'_extractLsb' data 80 32 17 5 (by omega))
  have secs : secsOf (data.extractLsb' 80 32) = slice data 96 80 :=
    (secsOf_eq _).trans (extractLsb'_extractLsb' data 80 32 0 17 (by omega))
  have lat : latRawOf (data.extractLsb' 48 32) = slice data 79 50 :=
    (latRawOf_eq _).trans (extractLsb'_extractLsb' data 48 32 2 30 (by omega))
  have lon : lonRawOf (data.extractLsb' 16 32) = slice data 47 17 :=
    (lonRawOf_eq _).trans (extractLsb'_extractLsb' data 16 32 1 31 (by omega))
  have submerged : submergedOf (data.extractLsb' 8 8) = data.getLsbD 15 :=
    (submergedOf_eq _).trans (BitVec.getLsbD_extractLsb' 8 8 data 7)
  have gps : gpsFlagOf (data.extractLsb' 8 8) = slice data 14 13 :=
    (gpsFlagOf_eq _).trans (extractLsb'_extractLsb' data 8 8 5 2 (by omega))
  have high : slice (data.extractLsb' 8 8) 4 0 = slice data 12 8 :=
    extractLsb'_extractLsb' data 8 8 0 5 (by omega)
  have low : slice (data.extractLsb' 0 8) 7 1 = slice data 7 1 :=
    extractLsb'_extractLsb' data 0 8 1 7 (by omega)
  have sst : sstRawOf (data.extractLsb' 8 8) (data.extractLsb' 0 8) = slice data 12 1 := by
    rw [sstRawOf_eq, high, low]
    exact BitVec.extractLsb'_append_extractLsb'_eq_extractLsb' (start₁ := 1) (len₁ := 7) rfl
  have batt : battRawOf (data.extractLsb' 0 8) = slice data 3 0 :=
    (battRawOf_eq _).trans (extractLsb'_extractLsb' data 0 8 0 4 (by omega))
  rw [fieldsOfOperands, year, month, day, secs, lat, lon, submerged, gps, sst, batt, yearOf_eq_ofNat,
    latFxOf_eq_ofInt, lonFxOf_eq_ofInt, sstFxOf_eq_ofInt, battFxOf_eq_ofNat]
  rfl

/-- DECODE of any request, from any state: it responds with the answer that the request and FP_RENDER fix
(R100, R101, R105). -/
theorem exec_decode (len : ReqLen) (data : Record) (s : State) :
    exec (.decode len data) s = .next (s.respond (answerOf s.fpRender len data)) := by
  by_cases h : len.toNat < 14
  · rw [exec_decode_of_short h, answerOf, if_pos h]
  · rw [exec_decode_of_long (by omega), answerOf, if_neg h, fieldsOfOperands_record]

/-- Settles O15: the answer of `exec_decode` names FP_RENDER and nothing else of the state. -/
theorem responseIgnoresHistory : Obligations.ResponseIgnoresHistory := by
  intro s s' len data hfp
  exact ⟨_, _, exec_decode len data s, exec_decode len data s', by simp [hfp], rfl⟩

/-- Settles O44, by the two answers of DECODE. -/
theorem hostReadsResponse : Obligations.HostReadsResponse := by
  intro s len data
  refine ⟨_, exec_decode len data s, rfl, fun hlong => ?_, fun hshort => ?_⟩
  · rw [answerOf, if_neg (by omega)]
    exact ⟨rfl, rfl, rfl⟩
  · rw [answerOf, if_pos hshort]
    refine ⟨rfl, rfl, rfl, ?_⟩
    cases hfp : s.fpRender <;> simp [State.portFields, DecodedTelemetry.portZero, hfp, zeroF64]

/-! ### What the step keeps -/

/-- Whatever the operand words hold, the datapath leaves a sound record (R77, R146). -/
theorem fieldsOfOperands_sound (fp : FpRender) (t l1 l2 : Word) (f n : Byte) :
    (fieldsOfOperands fp t l1 l2 f n).Sound fp := by
  obtain ⟨yearLow, yearHigh⟩ := yearOf_range (yearRawOf t)
  obtain ⟨latLow, latHigh⟩ := latFxOf_range (latRawOf l1)
  obtain ⟨lonLow, lonHigh⟩ := lonFxOf_range (lonRawOf l2)
  obtain ⟨sstLow, sstHigh⟩ := sstFxOf_range (sstRawOf f n)
  obtain ⟨battLow, battHigh⟩ := battFxOf_range (battRawOf n)
  exact ⟨yearOf_toNat _, yearLow, yearHigh, latFxOf_toInt _, latLow, latHigh, lonFxOf_toInt _, lonLow, lonHigh,
    sstFxOf_toInt _, sstLow, sstHigh, battFxOf_toNat _, battLow, battHigh, sstRaw_batteryRaw_share f n,
    renderLat_isSome fp _, renderLon_isSome fp _, renderSst_isSome fp _, renderBatt_isSome fp _⟩

/-- A response that is sound if it is a success ends a transaction in a state that meets the invariant. -/
theorem State.Inv.respond {s : State} (h : s.Inv) {r : Response} (hr : ∀ d, r = .ok d → d.Sound s.fpRender) :
    (s.respond r).Inv where
  stable hvalid := nomatch hvalid
  bufferCanonical := h.bufferCanonical
  bufferOffsets := h.bufferOffsets
  quiet := ⟨rfl, rfl, rfl, rfl, rfl, rfl⟩
  responseSound d hd := hr d (Option.some.inj hd)

theorem answerOf_sound {fp : FpRender} {len : ReqLen} {data : Record} {d : DecodedTelemetry}
    (h : answerOf fp len data = .ok d) : d.Sound fp := by
  unfold answerOf at h
  split at h
  · cases h
  · cases h
    exact fieldsOfOperands_record fp data ▸ fieldsOfOperands_sound fp _ _ _ _ _

/-- Settles O4: under the invariant a step is idle or one DECODE, for an outstanding request is held stable. -/
theorem stepKeepsInvariant : Obligations.StepKeepsInvariant := by
  intro s t hinv hstep
  rcases step_cases hstep with ⟨-, rfl⟩ | ⟨-, -, hdecode⟩ | ⟨hvalid, hunstable, -⟩
  · exact ⟨hinv, rfl⟩
  · cases (exec_decode _ _ s).symm.trans hdecode
    exact ⟨hinv.respond fun _ => answerOf_sound, rfl⟩
  · exact absurd (hinv.stable hvalid) (by simp [hunstable])

end Sys2Proof.Machine
end

section
/-! PROOFS. Reading and keeping the request buffer (R51 to R53), and blocks side by side (R61, R180). -/

namespace Sys2Proof.Machine

/-! ### A read as a sum of bytes -/

/-- Big-endian, a byte counts 256 times for each byte after it (R52). -/
theorem bigEndian_map_range' (f : Nat → Byte) (addr n : Nat) :
    bigEndian ((List.range' addr n).map f) =
      ∑ i ∈ Finset.range n, (f (addr + i)).toNat * 2 ^ (8 * (n - 1 - i)) := by
  induction n with
  | zero => rfl
  | succ n ih =>
    have shift : ∀ i ∈ Finset.range n, (f (addr + i)).toNat * 2 ^ (8 * (n - 1 - i)) * 256 =
        (f (addr + i)).toNat * 2 ^ (8 * (n - i)) := by
      intro i hi
      have hlt := Finset.mem_range.1 hi
      rw [show 8 * (n - i) = 8 * (n - 1 - i) + 8 by omega]
      ring
    rw [List.range'_1_concat, List.map_append, List.map_singleton, bigEndian_concat, ih, Finset.sum_mul,
      Finset.sum_congr rfl shift, Finset.sum_range_succ]
    simp

/-- Settles O20: a read inside the presented bytes is the sum of its lanes, and one past them, whether past the length
or past offset 13, meets an absent byte. -/
theorem memReadIsBigEndian : Obligations.MemReadIsBigEndian := by
  intro len data addr n hn
  have hpos : 0 < n := by omega
  have hlen : presentedBytes len ≤ len.toNat := Nat.min_le_left _ _
  have hfourteen := presentedBytes_le len
  refine ⟨fun hinside => ?_, fun hpast => ?_, fun hpast => ?_⟩
  · rw [memRead, readBytes_presentBuffer len data n addr hinside, Option.map_some, bigEndian_map_range']
  · exact memRead_presentBuffer_absent len data hpos (by omega)
  · exact memRead_presentBuffer_absent len data hpos (by omega)

/-! ### The request port is the host's -/

/-- An operation that goes on leaves the buffer and the length: it writes `out` alone, or it is DECODE and responds. -/
theorem exec_port {i : Instr} {s t : State} (h : exec i s = .next t) : t.buf = s.buf ∧ t.reqLen = s.reqLen := by
  cases i with
  | decode len data =>
    cases (exec_decode len data s).symm.trans h
    exact ⟨rfl, rfl⟩
  | _ =>
    obtain ⟨d, rfl⟩ := exec_datapath (by simp) h
    exact ⟨rfl, rfl⟩

theorem step_port {s t : State} (h : step s = .next t) : t.buf = s.buf ∧ t.reqLen = s.reqLen := by
  rcases step_cases h with ⟨-, rfl⟩ | ⟨-, -, hdecode⟩ | ⟨-, -, rfl⟩
  · exact ⟨rfl, rfl⟩
  · exact exec_port (i := .decode _ _) hdecode
  · exact ⟨rfl, rfl⟩

/-- Settles O23: the data port and every read of the buffer are views of the one field `buf`. -/
theorem requestBufferNeverWritten : Obligations.RequestBufferNeverWritten := by
  intro s t h
  obtain ⟨hbuf, hlen⟩ : t.buf = s.buf ∧ t.reqLen = s.reqLen :=
    h.elim (fun ⟨_, hexec⟩ => exec_port hexec) step_port
  exact ⟨hbuf, hlen, by rw [State.reqData, State.reqData, hbuf], fun a => by rw [hbuf]⟩

/-! ### Instances side by side -/

/-- A step always goes on, and the block it leaves is of the same build (R35, R106, R108). -/
theorem step_goes_on (s : State) : ∃ t, step s = .next t ∧ t.fpRender = s.fpRender := by
  cases hvalid : s.reqValid with
  | false => exact ⟨s, by simp [step, hvalid], rfl⟩
  | true =>
    cases hstable : s.reqStable with
    | false => exact ⟨respondDisturbed s, by simp [step, hvalid, hstable], rfl⟩
    | true => exact ⟨_, by rw [step_of_stable hvalid hstable, fetch_eq, exec_decode], State.respond_fpRender s _⟩

theorem State.drive_fpRender (s : State) (m : HostMove) : (s.drive m).fpRender = s.fpRender := by
  obtain ⟨r⟩ := m
  obtain ⟨_, h⟩ := present_eq s r
  rw [State.drive, h]

section
variable {sys : System} {k : Nat} {s : State} (h : sys.block k = some s)
include h

theorem System.stepAt_of_next {t : State} (hstep : step s = .next t) : sys.stepAt k = some (sys.setBlock k t) := by
  simp [System.stepAt, h, hstep]

theorem System.driveAt_eq (m : HostMove) : sys.driveAt k m = sys.setBlock k (s.drive m) := by
  simp [System.driveAt, h]

theorem System.resetAt_eq : sys.resetAt k = sys.setBlock k s.afterReset := by
  simp [System.resetAt, h]

/-- Replacing one block of a system by a state of its own build changes that block and no other (R61). -/
theorem System.setBlock_isolated {t : State} (ht : t.fpRender = s.fpRender) :
    (sys.setBlock k t).block k = some t ∧ ∀ j, j ≠ k → (sys.setBlock k t).block j = sys.block j :=
  ⟨System.block_setBlock_self h (ht.trans (System.block_fpRender h)), fun _ => System.block_setBlock_ne t⟩

end

/-- Settles O46: a step, a move of the host and a reset each replace block `k` by a state of its own build. -/
theorem instancesAreIsolated : Obligations.InstancesAreIsolated := by
  intro sys k s m h
  obtain ⟨t, hstep, hfp⟩ := step_goes_on s
  rw [System.driveAt_eq h, System.resetAt_eq h]
  exact ⟨⟨_, t, System.stepAt_of_next h hstep, hstep, System.setBlock_isolated h hfp⟩,
    System.setBlock_isolated h (s.drive_fpRender m), System.setBlock_isolated h s.afterReset_fpRender⟩

end Sys2Proof.Machine
end

section
/-! PROOFS. What the bits of a request decide: the bytes and the bits that no output reads (R59, R78, R79), and the
fields of the operand words (R72 to R77). -/

namespace Sys2Proof.Machine

/-! ### Bytes past the record -/

/-- The data port carries bytes 0 to 13 (R22): what follows them in a buffer is not on it. -/
theorem packLanes_append_of_long {bytes : List Byte} (h : 14 ≤ bytes.length) (extra : List Byte) :
    packLanes (bytes ++ extra) = packLanes bytes :=
  packLanes_of_lanes _ _ fun b hb => by
    rw [lane_packLanes bytes b hb, List.getD_append _ _ _ _ (by omega)]

/-- Saturation at 15 (R21) keeps a length that passes the length check on the passing side. -/
theorem saturateLen_of_long {count : Nat} (h : 14 ≤ count) : 14 ≤ (saturateLen count).toNat := by
  rw [saturateLen, BitVec.toNat_ofNat]
  omega

/-- Past the length check the length is not part of the answer (R59, R101). -/
theorem answerOf_of_long (fp : FpRender) {len : ReqLen} (h : 14 ≤ len.toNat) (data : Record) :
    answerOf fp len data = .ok (recordFields fp data) :=
  if_neg (by omega)

/-- Settles O16: the two requests may differ in the length port (14 and 15), but both pass the length check, and their
data ports are the same. -/
theorem trailingBytesIgnored : Obligations.TrailingBytesIgnored := by
  intro s bytes extra h
  have hlen := saturateLen_of_long h
  have hlen' : 14 ≤ (saturateLen (bytes ++ extra).length).toNat :=
    saturateLen_of_long (by rw [List.length_append]; omega)
  rw [decodeBuffer, decodeBuffer, exec_decode, exec_decode, packLanes_append_of_long h, answerOf_of_long _ hlen,
    answerOf_of_long _ hlen']

/-! ### Bits that no output reads -/

/-- A slice is the same in two words that agree on its bits. -/
theorem slice_congr {w : Nat} {v v' : BitVec w} {hi lo : Nat}
    (h : ∀ i < hi - lo + 1, v.getLsbD (lo + i) = v'.getLsbD (lo + i)) : slice v hi lo = slice v' hi lo := by
  ext i hlt
  simpa [slice] using h i hlt

/-- The fields of a record read none of rec[49:48] and rec[16], for no slice of the field table of R71 holds one. -/
theorem recordFields_congr (fp : FpRender) {data data' : Record}
    (h : ∀ i < 112, i ≠ 49 → i ≠ 48 → i ≠ 16 → data.getLsbD i = data'.getLsbD i) :
    recordFields fp data = recordFields fp data' := by
  have agree {hi lo : Nat} (hread : ∀ i < hi - lo + 1, lo + i < 112 ∧ lo + i ≠ 49 ∧ lo + i ≠ 48 ∧ lo + i ≠ 16) :
      slice data hi lo = slice data' hi lo :=
    slice_congr fun i hlt => by
      obtain ⟨hbit, h49, h48, h16⟩ := hread i hlt
      exact h _ hbit h49 h48 h16
  have year : slice data 111 106 = slice data' 111 106 := agree (by omega)
  have month : slice data 105 102 = slice data' 105 102 := agree (by omega)
  have day : slice data 101 97 = slice data' 101 97 := agree (by omega)
  have secs : slice data 96 80 = slice data' 96 80 := agree (by omega)
  have lat : slice data 79 50 = slice data' 79 50 := agree (by omega)
  have lon : slice data 47 17 = slice data' 47 17 := agree (by omega)
  have submerged : data.getLsbD 15 = data'.getLsbD 15 := h 15 (by omega) (by omega) (by omega) (by omega)
  have gps : slice data 14 13 = slice data' 14 13 := agree (by omega)
  have sst : slice data 12 1 = slice data' 12 1 := agree (by omega)
  have batt : slice data 3 0 = slice data' 3 0 := agree (by omega)
  simp only [recordFields, year, month, day, secs, lat, lon, submerged, gps, sst, batt]

/-- Settles O17: a short request is answered without its data, a long one by the fields of its record. -/
theorem unusedBitsIgnored : Obligations.UnusedBitsIgnored := by
  intro s len data data' h
  rw [exec_decode, exec_decode, answerOf, answerOf, recordFields_congr _ h]

/-! ### Extractors -/

/-- Settles O24: each of the four shifts and masks is the slice of T that R72 names. -/
theorem extractorsOfWordT : Obligations.ExtractorsOfWordT := by
  intro s
  rw [← yearRawOf_eq, ← monthOf_eq, ← dayOf_eq, ← secsOf_eq]
  exact ⟨rfl, rfl, rfl, rfl⟩

/-- Settles O25: the shifts of R125 and R126 drop L1[1:0] and L2[0]. -/
theorem extractorsOfPosition : Obligations.ExtractorsOfPosition := by
  intro s
  rw [← latRawOf_eq, ← lonRawOf_eq]
  exact ⟨rfl, rfl⟩

/-- The battery value is the three bits that it shares with `sstRaw`, then N[0] (R77, R130). -/
theorem battRawOf_toNat_of_sstRaw (f n : Byte) :
    (battRawOf n).toNat = 2 * ((sstRawOf f n).toNat % 8) + n.toNat % 2 := by
  rw [sstRaw_batteryRaw_share, battRawOf_toNat]
  omega

/-- R77's equation as it is written, for any two values that meet it as numbers: the shift makes the last bit 0, so
that the OR is a sum. -/
theorem shift_or_lastBit {batt : BitVec 4} {sst : BitVec 12} {n : Byte}
    (h : batt.toNat = 2 * (sst.toNat % 8) + n.toNat % 2) :
    batt = ((sst &&& 7#12).setWidth 4 <<< 1) ||| (n &&& 1#8).setWidth 4 := by
  have high : ((sst &&& 7#12).setWidth 4).toNat = sst.toNat % 8 := by
    rw [BitVec.toNat_setWidth, BitVec.toNat_and, BitVec.toNat_ofNat, Nat.and_two_pow_sub_one_eq_mod _ 3]
    omega
  have low : ((n &&& 1#8).setWidth 4).toNat = n.toNat % 2 := by
    rw [BitVec.toNat_setWidth, BitVec.toNat_and, BitVec.toNat_ofNat, Nat.and_two_pow_sub_one_eq_mod _ 1]
    omega
  have shifted : ((sst &&& 7#12).setWidth 4 <<< 1).toNat = (sst.toNat % 8) <<< 1 := by
    rw [BitVec.toNat_shiftLeft, high, Nat.shiftLeft_eq]
    omega
  apply BitVec.eq_of_toNat_eq
  rw [BitVec.toNat_or, shifted, low, ← Nat.shiftLeft_add_eq_or_of_lt (Nat.mod_lt _ (by omega)), Nat.shiftLeft_eq, h]
  omega

/-- Settles O28: both extractors go on, and what they write is `sstRawOf` and `battRawOf` of the same byte N. -/
theorem sstAndBatteryShareBits : Obligations.SstAndBatteryShareBits := by
  intro s
  have shared := battRawOf_toNat_of_sstRaw s.byteF s.byteN
  exact ⟨_, rfl, shift_or_lastBit shared, shared⟩

end Sys2Proof.Machine
end

section
/-! PROOFS. The DECODE transaction as a whole: the step that takes it, the order of its operations, and runs of
requests (R100, R101, R103, R106 to R108). -/

namespace Sys2Proof.Machine

/-! ### The step -/

/-- Settles O10: a step acts on an outstanding request only. -/
theorem noRequestNoChange : Obligations.NoRequestNoChange := by
  intro s hidle
  simp [step, hidle]

/-- Settles O7: the step goes on, and each of the two ways to answer, DECODE and the answer to a disturbed request, is
a response. -/
theorem everyStepAnswers : Obligations.EveryStepAnswers := by
  intro s
  obtain ⟨t, hstep, hfp⟩ := step_goes_on s
  refine ⟨t, hstep, ?_⟩
  rcases step_cases hstep with ⟨hidle, rfl⟩ | ⟨hvalid, -, hdecode⟩ | ⟨hvalid, -, rfl⟩
  · exact ⟨hidle, rfl, by simp [hidle], fun _ => rfl⟩
  · cases (exec_decode _ _ s).symm.trans hdecode
    exact ⟨rfl, hfp, fun _ => ⟨rfl, rfl⟩, by simp [hvalid]⟩
  · exact ⟨rfl, hfp, fun _ => ⟨rfl, rfl⟩, by simp [hvalid]⟩

/-! ### The two answers of DECODE -/

/-- Settles O12: the error response, `respond` written out. -/
theorem decodeShortBufferIsTruncated : Obligations.DecodeShortBufferIsTruncated := by
  intro s len data hshort
  exact exec_decode_of_short hshort data s

/-- Settles O13: past the length check the answer is the fields of the record, `respond` written out. -/
theorem decodeLongBufferGivesRecordFields : Obligations.DecodeLongBufferGivesRecordFields := by
  intro s len data hlong
  rw [exec_decode, answerOf_of_long _ hlong]
  rfl

/-! ### Runs -/

/-- An idle block answers a request by that request alone (R105), and the port keeps the answered request (R51). -/
theorem serve_of_idle {s : State} (hidle : s.reqValid = false) (r : Request) :
    serve s r = some (answerOf s.fpRender r.len r.data,
      (s.latch r.len r.data).respond (answerOf s.fpRender r.len r.data)) := by
  have answered := (presentedRequestIsRun s r.len r.data).2
  rw [exec_decode] at answered
  simp [serve, present_of_idle hidle, answered]

/-- Settles O43, by induction on the requests: each one leaves the block idle and of the same build for the next. -/
theorem runAnswersEachRequest : Obligations.RunAnswersEachRequest := by
  intro s reqs hidle
  induction reqs generalizing s with
  | nil => exact ⟨s, rfl, hidle, rfl, rfl⟩
  | cons r rest ih =>
    obtain ⟨t, hrun, htidle, hfp, hrsp⟩ := ih ((s.latch r.len r.data).respond (answerOf s.fpRender r.len r.data)) rfl
    refine ⟨t, by simp [observe, serve_of_idle hidle, hrun], htidle, hfp, ?_⟩
    rw [hrsp, List.getLast?_cons]
    cases rest.getLast? <;> rfl

/-! ### The order of the datapath operations -/

/-- `d` with the one output field that operation `i` writes taken from `v` (R121 to R130, R141 to R145, R149 to R152). -/
def DecodedTelemetry.withFieldOf (d : DecodedTelemetry) (i : Instr) (v : DecodedTelemetry) : DecodedTelemetry where
  year := if i = .cvtYear then v.year else d.year
  yearRaw := if i = .extYear then v.yearRaw else d.yearRaw
  month := if i = .extMonth then v.month else d.month
  day := if i = .extDay then v.day else d.day
  secs := if i = .extSecs then v.secs else d.secs
  latRaw := if i = .extLat then v.latRaw else d.latRaw
  latFx := if i = .cvtLat then v.latFx else d.latFx
  lonRaw := if i = .extLon then v.lonRaw else d.lonRaw
  lonFx := if i = .cvtLon then v.lonFx else d.lonFx
  submerged := if i = .extSubm then v.submerged else d.submerged
  gpsFlag := if i = .extGps then v.gpsFlag else d.gpsFlag
  sstRaw := if i = .extSst then v.sstRaw else d.sstRaw
  sstFx := if i = .cvtSst then v.sstFx else d.sstFx
  battRaw := if i = .extBatt then v.battRaw else d.battRaw
  battFx := if i = .cvtBatt then v.battFx else d.battFx
  latF64 := if i = .f64Lat then v.latF64 else d.latF64
  lonF64 := if i = .f64Lon then v.lonF64 else d.lonF64
  sstF64 := if i = .f64Sst then v.sstF64 else d.sstF64
  battF64 := if i = .f64Batt then v.battF64 else d.battF64

/-- Each field as its own operation computes it in state `s`: a raw field from an operand word, any other from the raw
field that `out` holds. -/
def State.computed (s : State) : DecodedTelemetry where
  yearRaw := yearRawOf s.wordT
  month := monthOf s.wordT
  day := dayOf s.wordT
  secs := secsOf s.wordT
  latRaw := latRawOf s.wordL1
  lonRaw := lonRawOf s.wordL2
  submerged := submergedOf s.byteF
  gpsFlag := gpsFlagOf s.byteF
  sstRaw := sstRawOf s.byteF s.byteN
  battRaw := battRawOf s.byteN
  year := yearOf s.out.yearRaw
  latFx := latFxOf s.out.latRaw
  lonFx := lonFxOf s.out.lonRaw
  sstFx := sstFxOf s.out.sstRaw
  battFx := battFxOf s.out.battRaw
  latF64 := renderLat s.fpRender s.out.latRaw
  lonF64 := renderLon s.fpRender s.out.lonRaw
  sstF64 := renderSst s.fpRender s.out.sstRaw
  battF64 := renderBatt s.fpRender s.out.battRaw

/-- A datapath operation that the block has (R148) writes its one field, and one that it has not is refused. -/
theorem exec_datapath_eq {i : Instr} (hi : i ∈ datapathOps) (s : State) :
    exec i s = if i.wellFormed s.fpRender then .next (s.setOut (s.out.withFieldOf i s.computed))
      else .refused .f64OperationAbsent := by
  cases i with
  | decode len data => simp [datapathOps] at hi
  | f64Lat | f64Lon | f64Sst | f64Batt =>
    obtain ⟨fp⟩ := s
    cases fp <;> rfl
  | _ => rfl

/-- Different operations write different fields, so their writes commute. -/
theorem DecodedTelemetry.withFieldOf_comm {i j : Instr} (h : i ≠ j) (d v w : DecodedTelemetry) :
    (d.withFieldOf i v).withFieldOf j w = (d.withFieldOf j w).withFieldOf i v := by
  have oneWriter (k : Instr) : j = k → ¬ i = k := fun hj hi => h (hi.trans hj.symm)
  simp only [withFieldOf]
  congr 1 <;> exact ite_ite_comm _ _ _ _ (oneWriter _)

/-- What an operation computes is the same after any operation but the extractor of the raw field that it reads. -/
theorem withFieldOf_computed {i j : Instr} (h : (i, j) ∉ readsOutputOf) (s : State) (d v : DecodedTelemetry) :
    d.withFieldOf j (s.setOut (s.out.withFieldOf i v)).computed = d.withFieldOf j s.computed := by
  have notRead {k : Instr} (hk : (k, j) ∈ readsOutputOf) : i ≠ k := by
    rintro rfl
    exact h hk
  cases j with
  | cvtYear =>
    have year : i ≠ .extYear := notRead (by decide)
    simp [DecodedTelemetry.withFieldOf, State.computed, year]
  | cvtLat | f64Lat =>
    have lat : i ≠ .extLat := notRead (by decide)
    simp [DecodedTelemetry.withFieldOf, State.computed, lat]
  | cvtLon | f64Lon =>
    have lon : i ≠ .extLon := notRead (by decide)
    simp [DecodedTelemetry.withFieldOf, State.computed, lon]
  | cvtSst | f64Sst =>
    have sst : i ≠ .extSst := notRead (by decide)
    simp [DecodedTelemetry.withFieldOf, State.computed, sst]
  | cvtBatt | f64Batt =>
    have batt : i ≠ .extBatt := notRead (by decide)
    simp [DecodedTelemetry.withFieldOf, State.computed, batt]
  | _ => simp [DecodedTelemetry.withFieldOf, State.computed]

/-- Settles O29: either order gives both operations the same values to write, and the writes commute. Where the block
has not one of them, that refusal is the outcome of either order. -/
theorem evaluationOrderIsInvisible : Obligations.EvaluationOrderIsInvisible := by
  intro s i j hi hj hij hji
  rcases eq_or_ne i j with rfl | hne
  · rfl
  · rw [exec_datapath_eq hi s, exec_datapath_eq hj s]
    by_cases hwi : i.wellFormed s.fpRender = true <;> by_cases hwj : j.wellFormed s.fpRender = true <;>
      simp [hwi, hwj, andThen, exec_datapath_eq hi, exec_datapath_eq hj, withFieldOf_computed hij,
        withFieldOf_computed hji, DecodedTelemetry.withFieldOf_comm hne]

end Sys2Proof.Machine
end

section
/-! PROOFS. Which record bits each output field reads (R71, R131), and the extractors of the bytes F and N (R75,
R76). -/

namespace Sys2Proof.Machine

/-! ### Extractors of F and N -/

/-- Settles O26: the test of R127 is bit 7 of F, and the shift and mask of R128 are F[6:5]. -/
theorem extractorsOfByteF : Obligations.ExtractorsOfByteF := by
  intro s
  rw [← submergedOf_eq, ← gpsFlagOf_eq]
  exact ⟨rfl, rfl⟩

/-- Settles O27: the OR of R129 is F[4:0] in front of N[7:1], and the mask of R130 is N[3:0]. -/
theorem extractorsOfSstAndBattery : Obligations.ExtractorsOfSstAndBattery := by
  intro s
  rw [← sstRawOf_eq, ← battRawOf_eq]
  exact ⟨rfl, rfl⟩

/-! ### Masks of the record -/

/-- The mask with a one at each bit of `[hi:lo]` and a zero at every other. -/
def sliceMask (w hi lo : Nat) : BitVec w :=
  (BitVec.allOnes (hi - lo + 1)).setWidth w <<< lo

theorem sliceMask_getLsbD (w hi lo i : Nat) :
    (sliceMask w hi lo).getLsbD i = decide (i < w ∧ lo ≤ i ∧ i < lo + (hi - lo + 1)) := by
  simp only [sliceMask, BitVec.getLsbD_shiftLeft, BitVec.getLsbD_setWidth, BitVec.getLsbD_allOnes]
  grind

/-- Two words have the same slice exactly when they agree on its bits. -/
theorem slice_eq_iff {w hi lo : Nat} (v v' : BitVec w) :
    slice v hi lo = slice v' hi lo ↔ ∀ i < hi - lo + 1, v.getLsbD (lo + i) = v'.getLsbD (lo + i) := by
  refine ⟨fun h i hlt => ?_, slice_congr⟩
  have hbit := congrArg (·.getLsbD i) h
  simpa only [slice, BitVec.getLsbD_extractLsb', hlt, decide_true, Bool.true_and] using hbit

/-- Two words are the same under the mask of a slice exactly when they agree on the bits of the slice. -/
theorem and_sliceMask_eq_iff {w hi lo : Nat} (v v' : BitVec w) :
    v &&& sliceMask w hi lo = v' &&& sliceMask w hi lo ↔
      ∀ i < hi - lo + 1, v.getLsbD (lo + i) = v'.getLsbD (lo + i) := by
  constructor
  · intro h i hlt
    have hbit := congrArg (·.getLsbD (lo + i)) h
    simp only [BitVec.getLsbD_and, sliceMask_getLsbD] at hbit
    grind
  · intro h
    refine BitVec.eq_of_getLsbD_eq fun j hj => ?_
    have hbit := h (j - lo)
    rw [BitVec.getLsbD_and, BitVec.getLsbD_and, sliceMask_getLsbD]
    grind

theorem slice_eq_iff_and_sliceMask {w hi lo : Nat} (v v' : BitVec w) :
    slice v hi lo = slice v' hi lo ↔ v &&& sliceMask w hi lo = v' &&& sliceMask w hi lo :=
  (slice_eq_iff v v').trans (and_sliceMask_eq_iff v v').symm

theorem getLsbD_eq_iff_and_sliceMask {w b : Nat} (v v' : BitVec w) :
    v.getLsbD b = v'.getLsbD b ↔ v &&& sliceMask w b b = v' &&& sliceMask w b b := by
  simp [and_sliceMask_eq_iff]

/-- Settles O18: each raw field of the response is a slice of the record, or its bit 15, and the `reads_mask` of its
row is the mask of that slice. -/
theorem outputsReadExactlyTheirBits : Obligations.OutputsReadExactlyTheirBits := by
  intro s len data data' hlong
  exact ⟨_, _, _, _, decodeLongBufferGivesRecordFields s len data hlong,
    decodeLongBufferGivesRecordFields s len data' hlong, rfl, rfl,
    slice_eq_iff_and_sliceMask data data', slice_eq_iff_and_sliceMask data data',
    slice_eq_iff_and_sliceMask data data', slice_eq_iff_and_sliceMask data data',
    slice_eq_iff_and_sliceMask data data', slice_eq_iff_and_sliceMask data data',
    getLsbD_eq_iff_and_sliceMask data data', slice_eq_iff_and_sliceMask data data',
    slice_eq_iff_and_sliceMask data data', slice_eq_iff_and_sliceMask data data'⟩

/-! ### The flag bits -/

/-- The record with the given bits at rec[15] and rec[14:13] and zeros elsewhere (R75). -/
def flagBits (submerged : Bool) (gps : BitVec 2) : Record :=
  (BitVec.ofBool submerged ++ gps ++ 0#13).setWidth 112

theorem flagBits_getLsbD_of_other (submerged : Bool) (gps : BitVec 2) {i : Nat} (h : i < 13 ∨ 15 < i) :
    (flagBits submerged gps).getLsbD i = false := by
  simp only [flagBits, BitVec.getLsbD_setWidth, BitVec.getLsbD_append, BitVec.getLsbD_ofBool]
  grind

theorem flagBits_getLsbD_submerged (submerged : Bool) (gps : BitVec 2) :
    (flagBits submerged gps).getLsbD 15 = submerged := by
  revert submerged gps
  decide

theorem slice_flagBits_gps (submerged : Bool) (gps : BitVec 2) : slice (flagBits submerged gps) 14 13 = gps := by
  revert submerged gps
  decide

theorem slice_xor {w : Nat} (v v' : BitVec w) (hi lo : Nat) :
    slice (v ^^^ v') hi lo = slice v hi lo ^^^ slice v' hi lo :=
  BitVec.extractLsb'_xor

/-- Toggling flag bits of a record toggles the same bits of SUBMERGED and GPSFLAG and changes no other field. -/
theorem recordFields_xor_flagBits (fp : FpRender) (data : Record) (submerged : Bool) (gps : BitVec 2) :
    recordFields fp (data ^^^ flagBits submerged gps) =
      { recordFields fp data with
        submerged := (recordFields fp data).submerged ^^ submerged
        gpsFlag := (recordFields fp data).gpsFlag ^^^ gps } := by
  have other {hi lo : Nat} (h : ∀ i < hi - lo + 1, lo + i < 13 ∨ 15 < lo + i) :
      slice (data ^^^ flagBits submerged gps) hi lo = slice data hi lo :=
    slice_congr fun i hlt => by
      rw [BitVec.getLsbD_xor, flagBits_getLsbD_of_other _ _ (h i hlt), Bool.xor_false]
  have year : slice (data ^^^ flagBits submerged gps) 111 106 = slice data 111 106 := other (by omega)
  have month : slice (data ^^^ flagBits submerged gps) 105 102 = slice data 105 102 := other (by omega)
  have day : slice (data ^^^ flagBits submerged gps) 101 97 = slice data 101 97 := other (by omega)
  have secs : slice (data ^^^ flagBits submerged gps) 96 80 = slice data 96 80 := other (by omega)
  have lat : slice (data ^^^ flagBits submerged gps) 79 50 = slice data 79 50 := other (by omega)
  have lon : slice (data ^^^ flagBits submerged gps) 47 17 = slice data 47 17 := other (by omega)
  have sst : slice (data ^^^ flagBits submerged gps) 12 1 = slice data 12 1 := other (by omega)
  have batt : slice (data ^^^ flagBits submerged gps) 3 0 = slice data 3 0 := other (by omega)
  simp only [recordFields, year, month, day, secs, lat, lon, sst, batt, BitVec.getLsbD_xor,
    flagBits_getLsbD_submerged, slice_xor, slice_flagBits_gps]

/-- Each of the three toggles of rec[14:13] leaves rec[15] and is not empty. -/
theorem gpsToggle_eq_flagBits {mask : Record} (h : mask ∈ [0x2000#112, 0x4000#112, 0x6000#112]) :
    ∃ gps, gps ≠ 0 ∧ mask = flagBits false gps := by
  simp only [List.mem_cons, List.not_mem_nil, or_false] at h
  rcases h with rfl | rfl | rfl
  · exact ⟨1#2, by decide, rfl⟩
  · exact ⟨2#2, by decide, rfl⟩
  · exact ⟨3#2, by decide, rfl⟩

/-- Settles O19: both toggles are exclusive ors with flag bits, the first at rec[15] alone, the second at rec[14:13]
alone. -/
theorem flagBitsAreIndependent : Obligations.FlagBitsAreIndependent := by
  intro s len data mask hlong hmask
  obtain ⟨gps, hgps, rfl⟩ := gpsToggle_eq_flagBits hmask
  have submergedToggle := recordFields_xor_flagBits s.fpRender data true 0#2
  have gpsToggle := recordFields_xor_flagBits s.fpRender data false gps
  rw [Bool.xor_true, BitVec.xor_zero] at submergedToggle
  rw [Bool.xor_false] at gpsToggle
  exact ⟨_, _, _, _, decodeLongBufferGivesRecordFields s len data hlong, rfl,
    decodeLongBufferGivesRecordFields s len _ hlong, congrArg (fun d => some (Response.ok d)) submergedToggle,
    decodeLongBufferGivesRecordFields s len _ hlong, (recordFields s.fpRender data).gpsFlag ^^^ gps,
    fun same => hgps ((BitVec.xor_right_inj _).1 (same.trans BitVec.xor_zero.symm)),
    congrArg (fun d => some (Response.ok d)) gpsToggle⟩

end Sys2Proof.Machine
end

section
/-! PROOFS. The rescalers: exact outputs, one to one, in the ranges of the output table (R140 to R147). -/

namespace Sys2Proof.Machine

/-! ### Exact outputs -/

/-- Settles O31: each sum fits its output width. -/
theorem convertYearAndBattery : Obligations.ConvertYearAndBattery :=
  fun _ => ⟨⟨_, rfl, yearOf_toNat _⟩, ⟨_, rfl, battFxOf_toNat _⟩⟩

/-- Settles O32: each output has one bit more than its raw value, so the difference does not overflow. -/
theorem convertPositionAndSst : Obligations.ConvertPositionAndSst :=
  fun _ => ⟨⟨_, rfl, latFxOf_toInt _⟩, ⟨_, rfl, lonFxOf_toInt _⟩, ⟨_, rfl, sstFxOf_toInt _⟩⟩

/-! ### One to one -/

/-- A rescaler whose output, read as an integer, is its raw value minus a constant is one to one. -/
theorem injective_of_exact {w v : Nat} {rescale : BitVec w → BitVec v} (read : BitVec v → ℤ) (c : ℤ)
    (exact : ∀ raw, read (rescale raw) = raw.toNat - c) : Function.Injective rescale := by
  intro raw raw' same
  have differences : (raw.toNat : ℤ) - c = raw'.toNat - c := by rw [← exact, ← exact, same]
  exact BitVec.eq_of_toNat_eq (by omega)

theorem yearOf_injective : Function.Injective yearOf :=
  injective_of_exact (fun year => year.toNat) (-2000) fun raw => by rw [yearOf_toNat]; omega

theorem latFxOf_injective : Function.Injective latFxOf :=
  injective_of_exact BitVec.toInt 324000000 latFxOf_toInt

theorem lonFxOf_injective : Function.Injective lonFxOf :=
  injective_of_exact BitVec.toInt 648000000 lonFxOf_toInt

theorem sstFxOf_injective : Function.Injective sstFxOf :=
  injective_of_exact BitVec.toInt 500 sstFxOf_toInt

theorem battFxOf_injective : Function.Injective battFxOf :=
  injective_of_exact (fun batt => batt.toNat) (-10) fun raw => by rw [battFxOf_toNat]; omega

/-- Settles O34: the field that a rescaler writes is its one-to-one function of the raw field. -/
theorem rescalersAreOneToOne : Obligations.RescalersAreOneToOne := by
  intro s s' t t'
  refine ⟨?year, ?lat, ?lon, ?sst, ?batt⟩ <;> rintro ⟨⟩ ⟨⟩ same
  case year => exact yearOf_injective same
  case lat => exact latFxOf_injective same
  case lon => exact lonFxOf_injective same
  case sst => exact sstFxOf_injective same
  case batt => exact battFxOf_injective same

/-! ### Ranges -/

/-- Settles O35: the response is sound, so its rescaled fields are in range, and the width of each other field is its
range. -/
theorem outputRanges : Obligations.OutputRanges := by
  intro s len data hlong
  obtain ⟨-, yearLow, yearHigh, -, latLow, latHigh, -, lonLow, lonHigh, -, sstLow, sstHigh, -, battLow, battHigh, -⟩ :=
    answerOf_sound (answerOf_of_long s.fpRender hlong data)
  have widthBound {w : Nat} (field : BitVec w) : field.toNat ≤ 2 ^ w - 1 := Nat.le_sub_one_of_lt field.isLt
  exact ⟨_, _, decodeLongBufferGivesRecordFields s len data hlong, rfl, yearLow, yearHigh, widthBound _, widthBound _,
    widthBound _, widthBound _, latLow, latHigh, lonLow, lonHigh, sstLow, sstHigh, battLow, battHigh⟩

end Sys2Proof.Machine
end

section
/-! PROOFS. Rounded binary64 results as ordinary encodings, and the rounded operations of the source's formulas
(R148). -/

namespace Sys2Proof.Machine

/-! ### Ordinary encodings -/

/-- The least normal magnitude. -/
theorem magnitudeValue_leastNormal : magnitudeValue (2 ^ 52) = (2 : ℚ) ^ (-1022 : ℤ) := by
  calc magnitudeValue (2 ^ 52)
      = ((2 ^ 52 : ℕ) : ℚ) * (2 : ℚ) ^ (-1074 : ℤ) := magnitudeValue_mk 0 (2 ^ 52) (.inl rfl) (by norm_num)
    _ = (2 : ℚ) ^ (-1022 : ℤ) := by
      rw [Nat.cast_pow, ← zpow_natCast, Nat.cast_ofNat, ← zpow_add₀ two_ne_zero]
      rfl

theorem abs_b64Value (w : B64) : |(b64Value w).toRat| = magnitudeValue (magnitudeOf w) := by
  have sign : |(if w.msb then -1 else 1 : ℚ)| = 1 := by split <;> simp
  rw [b64Value_toRat, abs_mul, sign, one_mul, abs_of_nonneg (magnitudeValue_nonneg _)]

/-- The value of an encoding with exponent field zero lies below the least normal number. -/
theorem b64Value_lt_of_subnormal {w : B64} (subnormal : b64Exponent w = 0) :
    |(b64Value w).toRat| < (2 : ℚ) ^ (-1022 : ℤ) := by
  have magnitude : magnitudeOf w < 2 ^ 52 := by
    rw [b64Exponent_eq] at subnormal
    omega
  rw [abs_b64Value, ← magnitudeValue_leastNormal]
  exact magnitudeValue_strictMono magnitude

/-- From a rational of the normal range, the least normal number of its sign is as far as their sizes differ. -/
theorem exists_leastNormal_near {x : ℚ} (hx : (2 : ℚ) ^ (-1022 : ℤ) ≤ |x|) :
    ∃ v : B64, b64Finite v = true ∧ |(b64Value v).toRat - x| = |x| - (2 : ℚ) ^ (-1022 : ℤ) := by
  rcases le_total 0 x with pos | neg
  · refine ⟨0x0010000000000000#64, by decide, ?_⟩
    have value : (b64Value 0x0010000000000000#64).toRat = magnitudeValue (2 ^ 52) := by
      rw [b64Value_toRat, if_neg (by decide), one_mul]
      rfl
    rw [abs_of_nonneg pos] at hx ⊢
    rw [value, magnitudeValue_leastNormal, abs_of_nonpos (by linarith), neg_sub]
  · refine ⟨0x8010000000000000#64, by decide, ?_⟩
    have value : (b64Value 0x8010000000000000#64).toRat = -magnitudeValue (2 ^ 52) := by
      rw [b64Value_toRat, if_pos (by decide), neg_one_mul]
      rfl
    rw [abs_of_nonpos neg] at hx ⊢
    rw [value, magnitudeValue_leastNormal, abs_of_nonneg (by linarith)]
    ring

/-- A binary64 value nearest a rational of the normal range is a normal number: the least normal number of the
rational's sign is nearer than any subnormal. -/
theorem NearestB64.ordinary {x : ℚ} {w : B64} (near : NearestB64 x w) (hx : (2 : ℚ) ^ (-1022 : ℤ) ≤ |x|) :
    OrdinaryB64 w := by
  obtain ⟨finite, nearest⟩ := near
  refine .inr ⟨fun subnormal => ?_, by simpa [b64Finite] using finite⟩
  obtain ⟨v, vFinite, vDistance⟩ := exists_leastNormal_near hx
  have closest := (nearest v vFinite).1
  have below := b64Value_lt_of_subnormal subnormal
  have distance := abs_sub_abs_le_abs_sub x (b64Value w).toRat
  rw [abs_sub_comm] at distance
  linarith

/-- A rounded fraction is ordinary where the exact one is zero, which rounds to +0, or in the normal range. -/
theorem rne64_ordinary {x : Frac} (hd : 0 < x.den) (hr : |x.toRat| < 2 ^ 1023)
    (hx : x.toRat = 0 ∨ (2 : ℚ) ^ (-1022 : ℤ) ≤ |x.toRat|) : OrdinaryB64 (rne64 x) := by
  rcases hx with zero | normal
  · have den : (x.den : ℚ) ≠ 0 := by positivity
    have num : x.num = 0 := by simpa [Frac.toRat, den] using zero
    exact .inl (if_pos num)
  · exact (rne64_nearest x hd hr).ordinary normal

/-- A nonzero fraction is no smaller than one part of its denominator. -/
theorem Frac.toRat_eq_zero_or_le {x : Frac} (hd : 0 < x.den) : x.toRat = 0 ∨ (1 : ℚ) / x.den ≤ |x.toRat| := by
  rcases eq_or_ne x.num 0 with zero | nonzero
  · exact .inl (by simp [Frac.toRat, zero])
  · right
    have den : (0 : ℚ) < x.den := by exact_mod_cast hd
    have num : (1 : ℚ) ≤ |(x.num : ℚ)| := by exact_mod_cast Int.one_le_abs nonzero
    rw [Frac.toRat, abs_div, abs_of_pos den]
    gcongr

theorem abs_lt_two_pow_1023 {x : ℚ} (h : |x| < 2 ^ 53) : |x| < 2 ^ 1023 :=
  h.trans_le (pow_le_pow_right₀ (by norm_num) (by norm_num))

theorem two_zpow_neg_1022_le {x : ℚ} (h : (1 : ℚ) / 2 ^ 52 ≤ x) : (2 : ℚ) ^ (-1022 : ℤ) ≤ x := by
  refine le_trans ?_ h
  rw [one_div, ← zpow_natCast, ← zpow_neg]
  exact zpow_le_zpow_right₀ (by norm_num) (by norm_num)

/-! ### ROUNDED_B64 -/

/-- A fixed-point output over its scale rounds to an ordinary nearest value. -/
theorem rne64_fixedPoint {n : ℤ} {d : ℕ} (hn : |n| < 2 ^ 53) (hd : 0 < d) (hd' : d ≤ 2 ^ 52) :
    NearestB64 ((n : ℚ) / d) (rne64 ⟨n, d⟩) ∧ OrdinaryB64 (rne64 ⟨n, d⟩) := by
  have den : (1 : ℚ) ≤ d := by exact_mod_cast hd
  have bound : |(n : ℚ) / d| < 2 ^ 53 := by
    rw [abs_div, Nat.abs_cast]
    exact (div_le_self (abs_nonneg _) den).trans_lt (by exact_mod_cast hn)
  refine ⟨rne64_nearest ⟨n, d⟩ hd (abs_lt_two_pow_1023 bound), rne64_ordinary hd (abs_lt_two_pow_1023 bound) ?_⟩
  refine (Frac.toRat_eq_zero_or_le (x := ⟨n, d⟩) hd).imp_right fun h => two_zpow_neg_1022_le (le_trans ?_ h)
  gcongr
  exact_mod_cast hd'

/-! ### STEPWISE_B64 -/

/-- A nearest value is at most twice as far from zero as its rational, for zero is a binary64 value. -/
theorem NearestB64.abs_le {x : ℚ} {w : B64} (near : NearestB64 x w) : |(b64Value w).toRat| ≤ 2 * |x| := by
  have zero : (b64Value 0).toRat = 0 := by simp [b64Value_toRat, magnitudeOf, magnitudeValue]
  have closest := (near.2 0 (by decide)).1
  have distance := abs_sub_abs_le_abs_sub (b64Value w).toRat x
  rw [zero, zero_sub, abs_neg] at closest
  linarith

/-- From 1 upwards a binary64 value is a whole number of units `1 / 2 ^ 52`. -/
theorem b64Value_grid {w : B64} (h : 1 ≤ |(b64Value w).toRat|) : ∃ n : ℤ, (b64Value w).toRat = n / 2 ^ 52 := by
  rcases magnitudeValue_grid (magnitudeOf w) 1022 with ⟨n, hn⟩ | ⟨-, small⟩
  · refine ⟨(if w.msb then -1 else 1) * n, ?_⟩
    rw [b64Value_toRat, hn]
    push_cast
    ring_nf
  · rw [abs_b64Value] at h
    have unit : (2 : ℚ) ^ 52 * (2 : ℚ) ^ (((1022 : ℕ) : ℤ) - 1074) = 1 := by norm_num
    linarith

/-- A binary64 value and an integer of size 2 or more are equal or at least `1 / 2 ^ 52` apart: below 1 the value is far
from the integer, and from 1 upwards both are on the grid. -/
theorem b64Value_sub_integer_gap (w : B64) {c : ℤ} (hc : 2 ≤ |c|) :
    (b64Value w).toRat - c = 0 ∨ (1 : ℚ) / 2 ^ 52 ≤ |(b64Value w).toRat - c| := by
  rcases lt_or_ge |(b64Value w).toRat| 1 with small | large
  · have size : (2 : ℚ) ≤ |(c : ℚ)| := by exact_mod_cast hc
    have distance := abs_sub_abs_le_abs_sub (c : ℚ) (b64Value w).toRat
    rw [abs_sub_comm] at distance
    exact .inr (by linarith)
  · obtain ⟨n, hn⟩ := b64Value_grid large
    have units : (b64Value w).toRat - c = (⟨n - c * 2 ^ 52, 2 ^ 52⟩ : Frac).toRat := by
      rw [hn, Frac.toRat]
      push_cast
      ring
    have gap := Frac.toRat_eq_zero_or_le (x := ⟨n - c * 2 ^ 52, 2 ^ 52⟩) (by positivity)
    rw [← units] at gap
    exact_mod_cast gap

/-- The last operation of a source formula: an integer offset of the first rounded result `q` is rounded to an ordinary
nearest value. -/
theorem rne64_offset {x y : ℚ} {q : B64} {f : Frac} (c : ℤ) (near : NearestB64 x q) (hx : |x| < 2 ^ 51)
    (hc : 2 ≤ c.natAbs) (hc' : c.natAbs < 2 ^ 52) (hy : y = (b64Value q).toRat - c) (hd : 0 < f.den)
    (hf : f.toRat = y) : NearestB64 y (rne64 f) ∧ OrdinaryB64 (rne64 f) := by
  have size := Int.abs_eq_natAbs c
  have bound : |y| < 2 ^ 53 := by
    have hc' : |(c : ℚ)| < 2 ^ 52 := by exact_mod_cast (by omega : |c| < 2 ^ 52)
    have := near.abs_le
    have := abs_sub (b64Value q).toRat (c : ℚ)
    rw [hy]
    linarith
  have gap := b64Value_sub_integer_gap q (c := c) (by omega)
  rw [← hy] at gap
  subst hf
  exact ⟨rne64_nearest f hd (abs_lt_two_pow_1023 bound),
    rne64_ordinary hd (abs_lt_two_pow_1023 bound) (gap.imp_right two_zpow_neg_1022_le)⟩

/-- An integer literal converts exactly (R148). -/
theorem b64Literal_integer {n : ℕ} (hn : n < 2 ^ 53) : (b64Value (b64Literal n 1)).toRat = n :=
  b64OfNat_exact n hn

/-- The literal 0.01 is 0x3F847AE147AE147B (R151). -/
theorem b64Literal_hundredth : (b64Value (b64Literal 1 100)).toRat = 5764607523034235 / 2 ^ 59 := by
  have value : b64Value (b64Literal 1 100) = ⟨5764607523034235, 2 ^ 59⟩ := by decide +kernel
  rw [value, Frac.toRat]
  norm_num

/-- The first operation of R149, R150 and R152. -/
theorem b64Div_nearest {n d : ℕ} (hn : n < 2 ^ 51) (hd : 0 < d) (hd' : d < 2 ^ 53) :
    |(n : ℚ) / d| < 2 ^ 51 ∧ NearestB64 ((n : ℚ) / d) (b64Div (b64OfNat n) (b64Literal d 1)) := by
  have divisor := b64Literal_integer hd'
  have den : (1 : ℚ) ≤ d := by exact_mod_cast hd
  have num : (b64Value (b64Literal d 1)).num ≠ 0 := by
    intro zero
    rw [Frac.toRat, zero, Int.cast_zero, zero_div] at divisor
    linarith
  have value : ((b64Value (b64OfNat n)).div (b64Value (b64Literal d 1))).toRat = (n : ℚ) / d := by
    rw [Frac.toRat_div _ _ num, divisor, b64OfNat_exact n (by omega)]
  have bound : |(n : ℚ) / d| < 2 ^ 51 := by
    rw [abs_div, Nat.abs_cast, Nat.abs_cast]
    exact (div_le_self (by positivity) den).trans_lt (by exact_mod_cast hn)
  refine ⟨bound, ?_⟩
  rw [← value] at bound ⊢
  exact rne64_nearest _ (Nat.mul_pos (b64Value_den_pos _) (Int.natAbs_pos.2 num))
    (abs_lt_two_pow_1023 (bound.trans (by norm_num)))

/-- The first operation of R151. -/
theorem b64Mul_hundredth_nearest {n : ℕ} (hn : n < 2 ^ 51) :
    |(n : ℚ) * (5764607523034235 / 2 ^ 59)| < 2 ^ 51 ∧
      NearestB64 ((n : ℚ) * (5764607523034235 / 2 ^ 59)) (b64Mul (b64OfNat n) (b64Literal 1 100)) := by
  have value : ((b64Value (b64OfNat n)).mul (b64Value (b64Literal 1 100))).toRat =
      (n : ℚ) * (5764607523034235 / 2 ^ 59) := by
    rw [Frac.toRat_mul, b64Literal_hundredth, b64OfNat_exact n (by omega)]
  have bound : |(n : ℚ) * (5764607523034235 / 2 ^ 59)| < 2 ^ 51 := by
    have hn : (n : ℚ) < 2 ^ 51 := by exact_mod_cast hn
    rw [abs_of_nonneg (by positivity)]
    linarith [n.cast_nonneg (α := ℚ)]
  refine ⟨bound, ?_⟩
  rw [← value] at bound ⊢
  exact rne64_nearest _ (Nat.mul_pos (b64Value_den_pos _) (b64Value_den_pos _))
    (abs_lt_two_pow_1023 (bound.trans (by norm_num)))

/-- The last operation of R149 to R151. -/
theorem b64Sub_integer {x : ℚ} {q : B64} {c : ℕ} (near : |x| < 2 ^ 51 ∧ NearestB64 x q) (hc : 2 ≤ c)
    (hc' : c < 2 ^ 52) :
    NearestB64 ((b64Value q).toRat - c) (b64Sub q (b64Literal c 1)) ∧ OrdinaryB64 (b64Sub q (b64Literal c 1)) := by
  have value := Frac.toRat_sub (b64Value q) (b64Value (b64Literal c 1)) (b64Value_den_pos _) (b64Value_den_pos _)
  rw [b64Literal_integer (by omega)] at value
  exact rne64_offset c near.2 near.1 (by omega) (by omega) rfl
    (Nat.mul_pos (b64Value_den_pos _) (b64Value_den_pos _)) value

/-- The last operation of R152. -/
theorem b64Add_integer {x : ℚ} {q : B64} {c : ℕ} (near : |x| < 2 ^ 51 ∧ NearestB64 x q) (hc : 2 ≤ c)
    (hc' : c < 2 ^ 52) :
    NearestB64 ((b64Value q).toRat + c) (b64Add q (b64Literal c 1)) ∧ OrdinaryB64 (b64Add q (b64Literal c 1)) := by
  have value := Frac.toRat_add (b64Value q) (b64Value (b64Literal c 1)) (b64Value_den_pos _) (b64Value_den_pos _)
  rw [b64Literal_integer (by omega)] at value
  exact rne64_offset (-c) near.2 near.1 (by omega) (by omega) (by push_cast; ring)
    (Nat.mul_pos (b64Value_den_pos _) (b64Value_den_pos _)) value

end Sys2Proof.Machine
end

section
/-! PROOFS. The four renderers of each setting, the binary64 fields of the response, and none under NONE (R148 to
R152). -/

namespace Sys2Proof.Machine

/-! ### The four renderings of each setting -/

/-- The rendering exists, as an ordinary encoding with the property `P`. -/
def RendersAs (rendering : Option B64) (P : B64 → Prop) : Prop :=
  ∃ w, rendering = some w ∧ OrdinaryB64 w ∧ P w

theorem RendersAs.ordinary {rendering : Option B64} {P : B64 → Prop} (h : RendersAs rendering P) {w : B64}
    (hw : some w = rendering) : OrdinaryB64 w := by
  obtain ⟨v, hv, ordinary, -⟩ := h
  cases hw.trans hv
  exact ordinary

theorem renderLat_rounded (raw : BitVec 30) :
    RendersAs (renderLat .roundedB64 raw) (NearestB64 ((raw.toNat : ℚ) / 3600000 - 90)) := by
  have range := latFxOf_range raw
  rw [← latFxOf_rat]
  exact ⟨_, rfl, (rne64_fixedPoint (abs_lt.2 (by omega)) (by norm_num) (by norm_num)).symm⟩

theorem renderLon_rounded (raw : BitVec 31) :
    RendersAs (renderLon .roundedB64 raw) (NearestB64 ((raw.toNat : ℚ) / 3600000 - 180)) := by
  have range := lonFxOf_range raw
  rw [← lonFxOf_rat]
  exact ⟨_, rfl, (rne64_fixedPoint (abs_lt.2 (by omega)) (by norm_num) (by norm_num)).symm⟩

theorem renderSst_rounded (raw : BitVec 12) :
    RendersAs (renderSst .roundedB64 raw) (NearestB64 (((raw.toNat : ℚ) - 500) / 100)) := by
  have range := sstFxOf_range raw
  have value : ((raw.toNat : ℚ) - 500) / 100 = ((sstFxOf raw).toInt : ℚ) / 100 := by
    rw [sstFxOf_rat]
    ring
  rw [value]
  exact ⟨_, rfl, (rne64_fixedPoint (abs_lt.2 (by omega)) (by norm_num) (by norm_num)).symm⟩

theorem renderBatt_rounded (raw : BitVec 4) :
    RendersAs (renderBatt .roundedB64 raw) (NearestB64 ((raw.toNat : ℚ) / 2 + 5)) := by
  have range := battFxOf_range raw
  rw [← battFxOf_rat]
  exact ⟨_, rfl, (rne64_fixedPoint (abs_lt.2 (by omega)) (by norm_num) (by norm_num)).symm⟩

theorem renderLat_stepwise (raw : BitVec 30) : RendersAs (renderLat .stepwiseB64 raw) fun w =>
    ∃ q, NearestB64 ((raw.toNat : ℚ) / 3600000) q ∧ NearestB64 ((b64Value q).toRat - 90) w := by
  have quotient := b64Div_nearest (n := raw.toNat) (d := 3600000) (by omega) (by norm_num) (by norm_num)
  obtain ⟨near, ordinary⟩ := b64Sub_integer (c := 90) quotient (by norm_num) (by norm_num)
  exact ⟨_, rfl, ordinary, _, quotient.2, near⟩

theorem renderLon_stepwise (raw : BitVec 31) : RendersAs (renderLon .stepwiseB64 raw) fun w =>
    ∃ q, NearestB64 ((raw.toNat : ℚ) / 3600000) q ∧ NearestB64 ((b64Value q).toRat - 180) w := by
  have quotient := b64Div_nearest (n := raw.toNat) (d := 3600000) (by omega) (by norm_num) (by norm_num)
  obtain ⟨near, ordinary⟩ := b64Sub_integer (c := 180) quotient (by norm_num) (by norm_num)
  exact ⟨_, rfl, ordinary, _, quotient.2, near⟩

theorem renderSst_stepwise (raw : BitVec 12) : RendersAs (renderSst .stepwiseB64 raw) fun w =>
    ∃ q, NearestB64 ((raw.toNat : ℚ) * (5764607523034235 / 2 ^ 59)) q ∧ NearestB64 ((b64Value q).toRat - 5) w := by
  have product := b64Mul_hundredth_nearest (n := raw.toNat) (by omega)
  obtain ⟨near, ordinary⟩ := b64Sub_integer (c := 5) product (by norm_num) (by norm_num)
  exact ⟨_, rfl, ordinary, _, product.2, near⟩

theorem renderBatt_stepwise (raw : BitVec 4) : RendersAs (renderBatt .stepwiseB64 raw) fun w =>
    ∃ q, NearestB64 ((raw.toNat : ℚ) / 2) q ∧ NearestB64 ((b64Value q).toRat + 5) w := by
  have quotient := b64Div_nearest (n := raw.toNat) (d := 2) (by omega) (by norm_num) (by norm_num)
  obtain ⟨near, ordinary⟩ := b64Add_integer (c := 5) quotient (by norm_num) (by norm_num)
  exact ⟨_, rfl, ordinary, _, quotient.2, near⟩

/-! ### The renderers -/

theorem exec_f64Lat {s : State} {w : B64} (h : renderLat s.fpRender s.out.latRaw = some w) :
    exec .f64Lat s = .next { s with out := { s.out with latF64 := some w } } := by
  simp only [exec, execF64Lat, h]
  rfl

theorem exec_f64Lon {s : State} {w : B64} (h : renderLon s.fpRender s.out.lonRaw = some w) :
    exec .f64Lon s = .next { s with out := { s.out with lonF64 := some w } } := by
  simp only [exec, execF64Lon, h]
  rfl

theorem exec_f64Sst {s : State} {w : B64} (h : renderSst s.fpRender s.out.sstRaw = some w) :
    exec .f64Sst s = .next { s with out := { s.out with sstF64 := some w } } := by
  simp only [exec, execF64Sst, h]
  rfl

theorem exec_f64Batt {s : State} {w : B64} (h : renderBatt s.fpRender s.out.battRaw = some w) :
    exec .f64Batt s = .next { s with out := { s.out with battF64 := some w } } := by
  simp only [exec, execF64Batt, h]
  rfl

/-- Settles O36: a rounded rendering is one rounding of the exact formula of its fixed-point output. -/
theorem roundedRenderIsNearest : Obligations.RoundedRenderIsNearest := by
  intro s rounded
  obtain ⟨_, lat, -, latNear⟩ := renderLat_rounded s.out.latRaw
  obtain ⟨_, lon, -, lonNear⟩ := renderLon_rounded s.out.lonRaw
  obtain ⟨_, sst, -, sstNear⟩ := renderSst_rounded s.out.sstRaw
  obtain ⟨_, batt, -, battNear⟩ := renderBatt_rounded s.out.battRaw
  rw [← rounded] at lat lon sst batt
  exact ⟨⟨_, exec_f64Lat lat, latNear⟩, ⟨_, exec_f64Lon lon, lonNear⟩, ⟨_, exec_f64Sst sst, sstNear⟩,
    ⟨_, exec_f64Batt batt, battNear⟩⟩

/-- Settles O37: a stepwise rendering rounds its quotient or product and then the offset of what that gave. -/
theorem stepwiseRenderRoundsEachOperation : Obligations.StepwiseRenderRoundsEachOperation := by
  intro s stepwise
  obtain ⟨_, lat, -, _, latNear⟩ := renderLat_stepwise s.out.latRaw
  obtain ⟨_, lon, -, _, lonNear⟩ := renderLon_stepwise s.out.lonRaw
  obtain ⟨_, sst, -, _, sstNear⟩ := renderSst_stepwise s.out.sstRaw
  obtain ⟨_, batt, -, _, battNear⟩ := renderBatt_stepwise s.out.battRaw
  rw [← stepwise] at lat lon sst batt
  exact ⟨⟨_, _, exec_f64Lat lat, latNear⟩, ⟨_, _, exec_f64Lon lon, lonNear⟩, ⟨_, _, exec_f64Sst sst, sstNear⟩,
    ⟨_, _, exec_f64Batt batt, battNear⟩⟩

/-! ### Renderings in the response -/

/-- Of the renderings of any raw values, none is out of the ordinary in any setting (R148). -/
theorem rendering_ordinary (fp : FpRender) (lat : BitVec 30) (lon : BitVec 31) (sst : BitVec 12) (batt : BitVec 4)
    (w : B64) (h : some w ∈ [renderLat fp lat, renderLon fp lon, renderSst fp sst, renderBatt fp batt]) :
    OrdinaryB64 w := by
  simp only [List.mem_cons, List.not_mem_nil, or_false] at h
  cases fp with
  | none => simp [renderLat, renderLon, renderSst, renderBatt] at h
  | stepwiseB64 =>
    rcases h with hw | hw | hw | hw
    · exact (renderLat_stepwise lat).ordinary hw
    · exact (renderLon_stepwise lon).ordinary hw
    · exact (renderSst_stepwise sst).ordinary hw
    · exact (renderBatt_stepwise batt).ordinary hw
  | roundedB64 =>
    rcases h with hw | hw | hw | hw
    · exact (renderLat_rounded lat).ordinary hw
    · exact (renderLon_rounded lon).ordinary hw
    · exact (renderSst_rounded sst).ordinary hw
    · exact (renderBatt_rounded batt).ordinary hw

/-- Settles O38: the binary64 fields of a response are the renderings of its raw values. -/
theorem renderedValuesAreOrdinary : Obligations.RenderedValuesAreOrdinary := by
  intro s len data hlong
  exact ⟨_, _, decodeLongBufferGivesRecordFields s len data hlong, rfl, rendering_ordinary s.fpRender _ _ _ _⟩

/-! ### The battery -/

/-- The half-integers 5 to 12.5 are binary64 values, so either setting gives them as they are (R152): evaluated for the
sixteen raw values. -/
theorem renderBatt_exact (raw : BitVec 4) :
    ∃ w, renderBatt .stepwiseB64 raw = some w ∧ renderBatt .roundedB64 raw = some w ∧
      (b64Value w).toRat = (raw.toNat : ℚ) / 2 + 5 := by
  have agree : ∀ raw, renderBatt .stepwiseB64 raw = renderBatt .roundedB64 raw := by decide +kernel
  have halves : ∀ raw : BitVec 4, 2 * (b64Value (rne64 ⟨(battFxOf raw).toNat, 2⟩)).num =
      (battFxOf raw).toNat * (b64Value (rne64 ⟨(battFxOf raw).toNat, 2⟩)).den := by decide +kernel
  refine ⟨_, agree raw, rfl, ?_⟩
  have den : ((b64Value (rne64 ⟨(battFxOf raw).toNat, 2⟩)).den : ℚ) ≠ 0 := by
    exact_mod_cast (b64Value_den_pos _).ne'
  rw [← battFxOf_rat, Frac.toRat, div_eq_div_iff den two_ne_zero, mul_comm]
  exact_mod_cast halves raw

/-- Settles O39, by the sixteen battery values. -/
theorem batteryRenderingsAgree : Obligations.BatteryRenderingsAgree := by
  intro s s' stepwise rounded sameRaw
  obtain ⟨w, hstepwise, hrounded, value⟩ := renderBatt_exact s.out.battRaw
  rw [← stepwise] at hstepwise
  rw [← rounded, sameRaw] at hrounded
  exact ⟨w, exec_f64Batt hstepwise, exec_f64Batt hrounded, value⟩

/-! ### No rendering -/

/-- Settles O40: under NONE the renderers are not among the operations of the block, and each rendering is none. -/
theorem noRenderingUnderNone : Obligations.NoRenderingUnderNone := by
  intro s absent
  refine ⟨fun i hi => ?_, fun len data hlong => ?_⟩
  · have datapath : i ∈ datapathOps := by
      revert i
      decide
    have illFormed : i.wellFormed .none = false := by
      revert i
      decide
    rw [exec_datapath_eq datapath, absent, illFormed]
    rfl
  · refine ⟨_, _, decodeLongBufferGivesRecordFields s len data hlong, rfl, ?_⟩
    rw [absent]
    exact ⟨rfl, rfl, rfl, rfl⟩

end Sys2Proof.Machine
end

section
/-! PROOFS. When TruncatedInputError is raised (R170, R28), and what the instances of a system have in common: how they
start and what they answer (R180). -/

namespace Sys2Proof.Machine

/-! ### The one exception -/

/-- The error answer is the answer to a short request, and to no other (R170). -/
theorem answerOf_eq_truncated_iff (fp : FpRender) (len : ReqLen) (data : Record) :
    answerOf fp len data = .err .truncatedInputError ↔ len.toNat < 14 := by
  unfold answerOf
  split
  · next short => simp [short]
  · next long => simp [long]

/-- Every answer is the error or a success: what is not truncated decodes (R170). -/
theorem answerOf_ok_iff (fp : FpRender) (len : ReqLen) (data : Record) :
    (∃ d, answerOf fp len data = .ok d) ↔ 14 ≤ len.toNat := by
  unfold answerOf
  split
  · next short => simpa using short
  · next long => simpa using long

/-- `rsp_err` is 1 exactly for the error response (R28). -/
theorem State.rspErr_iff (s : State) : s.rspErr = true ↔ s.rsp = some (.err .truncatedInputError) := by
  unfold State.rspErr
  split <;> simp [*]

/-- Settles O14: DECODE responds with the request's answer, and each clause reads that response. -/
theorem truncatedExactlyWhenShort : Obligations.TruncatedExactlyWhenShort := by
  intro s len data
  refine ⟨_, exec_decode len data s, ?_, ?_, ?_⟩
  · rw [State.respond_rsp, Option.some_inj, answerOf_eq_truncated_iff]
  · rw [State.rspErr_iff, State.respond_rsp, Option.some_inj, answerOf_eq_truncated_iff]
  · simp only [State.respond_rsp, Option.some_inj, answerOf_ok_iff]

/-! ### How the instances start -/

/-- Settles O47: instance 0 is the first block, and instance `j + 1` is entry `j` of the `n` others. -/
theorem instancesStartFromReset : Obligations.InstancesStartFromReset := by
  intro fp n k
  cases k with
  | zero => rfl
  | succ j =>
    rcases Nat.lt_or_ge j n with there | beyond
    · simp [System.block, System.start, State.built, there, Nat.succ_le_of_lt there]
    · simp [System.block, System.start, beyond.not_gt]

/-! ### What an instance answers -/

/-- A request just put on the port is answered by the next step, with its own answer (R20, R105). -/
theorem step_latch (s : State) (len : ReqLen) (data : Record) :
    step (s.latch len data) = .next ((s.latch len data).respond (answerOf s.fpRender len data)) := by
  rw [(presentedRequestIsRun s len data).2, exec_decode, State.latch_fpRender]

/-- Settles O48: the host's move latches the request in block `k`, and the block's step responds with the answer that
the request and the FP_RENDER of the system fix. -/
theorem anyInstanceServesAlike : Obligations.AnyInstanceServesAlike := by
  intro sys k s r h hidle
  have driven : (sys.driveAt k (.present r)).block k = some (s.latch r.len r.data) := by
    rw [System.driveAt_eq h, State.drive, present_of_idle hidle]
    exact (System.setBlock_isolated h (s.latch_fpRender _ _)).1
  have stepped := step_latch s r.len r.data
  refine ⟨_, _, System.stepAt_of_next driven stepped,
    (System.setBlock_isolated driven (State.respond_fpRender _ _)).1, ?_⟩
  rw [State.respond_rsp, System.block_fpRender h]

end Sys2Proof.Machine
end

section
/-! PROOFS. Reset (R35, R190, R192, R197), and the answer to a request that the host changed (R193, R194). -/

namespace Sys2Proof.Machine

/-! ### The views of a block without a response -/

section
variable {s : State} (h : s.rsp = none)
include h

theorem State.rspValid_of_no_response : s.rspValid = false := by
  simp [State.rspValid, h]

theorem State.rspErr_of_no_response : s.rspErr = false := by
  simp [State.rspErr, h]

theorem State.readFields_of_no_response : s.readFields = .fault .fieldReadBeforeResponse := by
  simp [State.readFields, h]

theorem State.portFields_of_no_response : s.portFields = .portZero s.fpRender := by
  simp [State.portFields, h]

end

theorem zeroF64_eq (fp : FpRender) : zeroF64 fp = if fp = .none then none else some 0 := by
  cases fp <;> rfl

/-! ### The state after reset -/

/-- Settles O1: no reset leaves a response, and the views of a block without one do not depend on the rest of it. -/
theorem resetClearsResponse : Obligations.ResetClearsResponse := by
  intro s r hr
  have noResponse : r.rsp = none := by
    simp only [List.mem_cons, List.not_mem_nil, or_false] at hr
    rcases hr with rfl | rfl | rfl <;> rfl
  rw [State.portFields_of_no_response noResponse]
  refine ⟨noResponse, State.rspValid_of_no_response noResponse, State.rspErr_of_no_response noResponse,
    State.readFields_of_no_response noResponse, rfl, fun p hp => ?_⟩
  have zero : p = zeroF64 r.fpRender := by simpa [DecodedTelemetry.portZero] using hp
  rw [zero, zeroF64_eq]

/-- A reset leaves no request, an empty buffer, no transaction and no response (R190, R197). -/
theorem State.afterReset_inv (s : State) : s.afterReset.Inv where
  stable hvalid := nomatch hvalid
  bufferCanonical := reset_buf_wf
  bufferOffsets := rfl
  quiet := ⟨rfl, rfl, rfl, rfl, rfl, rfl⟩
  responseSound _ hd := nomatch hd

/-- Settles O2: `State.reset` is itself the state after a reset of it. -/
theorem resetMeetsInvariant : Obligations.ResetMeetsInvariant :=
  ⟨State.reset.afterReset_inv, fun s => ⟨s.afterReset_inv, s.afterReset_fpRender⟩⟩

/-! ### The first request -/

/-- Settles O3: a block after reset is idle, and an idle block's answer names FP_RENDER and nothing else of it. -/
theorem firstRequestNeedsNoBoot : Obligations.FirstRequestNeedsNoBoot := by
  intro s s' r hidle hfp
  have afterReset := serve_of_idle s.afterReset_reqValid r
  have later := serve_of_idle hidle r
  rw [State.afterReset_fpRender] at afterReset
  rw [hfp] at later
  exact ⟨_, _, afterReset, later, rfl⟩

/-! ### A request that the host changed -/

theorem State.freeF64_isSome (s : State) (slot : Nat) : (s.freeF64 slot).isSome = true ↔ s.fpRender ≠ .none := by
  by_cases h : s.fpRender = .none <;> simp [State.freeF64, h]

/-- A free response is the error, or a success of the shape that FP_RENDER gives every success (R148, R193). -/
theorem State.freeResponse_cases (s : State) :
    s.freeResponse = .err .truncatedInputError ∨
      ∃ d, s.freeResponse = .ok d ∧
        (d.latF64.isSome = true ↔ s.fpRender ≠ .none) ∧ (d.lonF64.isSome = true ↔ s.fpRender ≠ .none) ∧
        (d.sstF64.isSome = true ↔ s.fpRender ≠ .none) ∧ (d.battF64.isSome = true ↔ s.fpRender ≠ .none) := by
  unfold State.freeResponse
  split
  · exact .inl rfl
  · exact .inr ⟨_, rfl, s.freeF64_isSome 15, s.freeF64_isSome 16, s.freeF64_isSome 17, s.freeF64_isSome 18⟩

theorem step_of_disturbed {s : State} (hvalid : s.reqValid = true) (hunstable : s.reqStable = false) :
    step s = .next (respondDisturbed s) := by
  simp [step, hvalid, hunstable]

theorem respondDisturbed_rsp (s : State) : (respondDisturbed s).rsp = some s.freeResponse := rfl

/-- Settles O11: the step is one response, and whatever the free values are, it has one of two shapes. -/
theorem disturbedRequestIsAnswered : Obligations.DisturbedRequestIsAnswered := by
  intro s hvalid hunstable
  refine ⟨_, step_of_disturbed hvalid hunstable, rfl, rfl, rfl, rfl, ⟨rfl, rfl, rfl, rfl, rfl, rfl⟩, rfl, ?_⟩
  simpa only [respondDisturbed_rsp, Option.some_inj] using s.freeResponse_cases

end Sys2Proof.Machine
end
